-- ==== Sys2Proof/Word.lean ====
section
/-! DEFINITION. The word type of the encoder: the byte (00_scope.md R9). -/

namespace Sys2Proof

/-- A byte, bit 7 the most significant (R9). -/
abbrev Byte := BitVec 8

end Sys2Proof
end

