-- ==== Sys2Proof/Config.lean ====
section
/-! DEFINITION. The configuration of the encoder (00_scope.md R6, R7; 10_state.md R39) and the constants the source
fixes (R5). Which configurations are legal (R8) is `Config.legal` in Machine/FrameEncoder.lean. -/

namespace Sys2Proof

/-- The calibration bytes (R7) and the durations in ticks (R6). -/
structure Config where
  k            : Byte
  start0       : Byte
  start1       : Byte
  start2       : Byte
  t1           : Nat
  t0           : Nat
  hdrBitPause  : Nat
  hdrSegPause  : Nat
  bodyBitPause : Nat
  bodySegPause : Nat
  msgPause     : Nat
  maxWait      : Nat
  seqWait      : Nat
deriving DecidableEq, Repr

/-- `REPEAT`: frames in a transmission (R5). -/
def Config.repeats : Nat := 10

/-- The encoding constant `K` of the paired remote: OPEN, no value (R7; DESIGN CHOICE, log 2). -/
opaque Config.machineK : Byte

/-- `START0` of the paired remote: OPEN, no value (R7; DESIGN CHOICE, log 2). -/
opaque Config.machineStart0 : Byte

/-- `START1` of the paired remote: OPEN, no value (R7; DESIGN CHOICE, log 2). -/
opaque Config.machineStart1 : Byte

/-- `START2` of the paired remote: OPEN, no value (R7; DESIGN CHOICE, log 2). -/
opaque Config.machineStart2 : Byte

/-- The default durations of R6 around given calibration bytes (DESIGN CHOICE, log 3). -/
def Config.withDefaultTiming (k start0 start1 start2 : Byte) : Config where
  k := k
  start0 := start0
  start1 := start1
  start2 := start2
  t1 := 880
  t0 := 380
  hdrBitPause := 420
  hdrSegPause := 830
  bodyBitPause := 700
  bodySegPause := 820
  msgPause := 90900
  maxWait := 16383
  seqWait := 1000000

/-- The configuration that `State.reset` carries. -/
def Config.machine : Config :=
  .withDefaultTiming Config.machineK Config.machineStart0 Config.machineStart1 Config.machineStart2

end Sys2Proof
end

