-- ==== Sys2Proof/Syntax.lean ====
section
/-! DEFINITION. The instructions: one constructor for each row of spec/opcode_table.json. The nine rows of format REQ12
(30_encoding.md R90) are what the host can request; the seventeen rows of format FRAME52 (R94) are the commands that a
row of the ROM selects (40_command_table.md R124 to R140). -/

namespace Sys2Proof

/-- The fields of a FRAME52 word that are not fixed by its row: bits 47:40, 39:32, 31:24, 15:8 and 7:0 (R94). -/
structure FrameFields where
  start0 : Byte
  start1 : Byte
  start2 : Byte
  enc    : Byte
  inv    : Byte
deriving DecidableEq, Repr

/-- One constructor a row. A request carries the whole of `req_val`, also where the operation ignores it (R91). -/
inductive Instr where
  | pwrOn (val : Byte)
  | pwrOff (val : Byte)
  | setFan (n : Byte)
  | setFlame (n : Byte)
  | setAux1 (n : Byte)
  | setAux2 (n : Byte)
  | seqStart (val : Byte)
  | seqStop (val : Byte)
  | reserved (op : BitVec 4) (val : Byte)
  | powerOn (f : FrameFields)
  | powerOff (f : FrameFields)
  | flame1 (f : FrameFields)
  | flame2 (f : FrameFields)
  | flame3 (f : FrameFields)
  | flame4 (f : FrameFields)
  | flame5 (f : FrameFields)
  | fan0 (f : FrameFields)
  | fan1 (f : FrameFields)
  | fan2 (f : FrameFields)
  | fan3 (f : FrameFields)
  | aux10 (f : FrameFields)
  | aux11 (f : FrameFields)
  | aux12 (f : FrameFields)
  | aux13 (f : FrameFields)
  | aux20 (f : FrameFields)
  | aux21 (f : FrameFields)
deriving DecidableEq, Repr

end Sys2Proof
end

