-- ==== Sys2Proof/WellFormed.lean ====
section
/-! DEFINITION. Which terms of `Instr` are instructions: the reserved row has an operation number 0x8 to 0xF
(30_encoding.md R90, R98), and in every frame the last segment is the complement of the one before it
(41_frame_encoder.md R154). That the other fields of a frame are those of the configuration is a matter of the
configuration, not of syntax: `FrameFields.ofConfig` in Machine/Operands.lean. -/

namespace Sys2Proof

/-- The complement property of a frame (R154). -/
def FrameFields.wellFormed (f : FrameFields) : Bool :=
  f.inv == ~~~f.enc

/-- The check of one instruction. -/
def Instr.wellFormed : Instr → Bool
  | .pwrOn _ => true
  | .pwrOff _ => true
  | .setFan _ => true
  | .setFlame _ => true
  | .setAux1 _ => true
  | .setAux2 _ => true
  | .seqStart _ => true
  | .seqStop _ => true
  | .reserved op _ => decide (8 ≤ op.toNat)
  | .powerOn f => f.wellFormed
  | .powerOff f => f.wellFormed
  | .flame1 f => f.wellFormed
  | .flame2 f => f.wellFormed
  | .flame3 f => f.wellFormed
  | .flame4 f => f.wellFormed
  | .flame5 f => f.wellFormed
  | .fan0 f => f.wellFormed
  | .fan1 f => f.wellFormed
  | .fan2 f => f.wellFormed
  | .fan3 f => f.wellFormed
  | .aux10 f => f.wellFormed
  | .aux11 f => f.wellFormed
  | .aux12 f => f.wellFormed
  | .aux13 f => f.wellFormed
  | .aux20 f => f.wellFormed
  | .aux21 f => f.wellFormed

end Sys2Proof
end

