-- ==== Sys2Proof/Decode.lean ====
section
/-! DEFINITION. The decoder and the encoder of both formats (30_encoding.md R90, R94; the rows of
spec/opcode_table.json), over words and over bytes. Both formats are read in parallel (20_memory.md R67); the byte form
is the model's, least significant byte first, unused high bits 0 (DESIGN CHOICE, log 9). -/

namespace Sys2Proof

/-- A word of one of the two formats. -/
inductive CodeWord where
  | req12 (w : BitVec 12)
  | frame52 (w : BitVec 52)
deriving DecidableEq, Repr

/-- Why bits are no instruction. -/
inductive DecodeError where
  /-- The number of bytes is that of neither format. -/
  | wrongLength
  /-- A bit above the format's width is set. -/
  | paddingNotZero
  /-- The header of a frame is not 1010. -/
  | badHeader
  /-- The command byte of a frame is no code of the ROM (R99). -/
  | unknownCode
deriving DecidableEq, Repr

/-- A request word. Every word is a request: operations 0x8 to 0xF are the reserved row (R98, R100). -/
def decodeReq (w : BitVec 12) : Instr :=
  let op : BitVec 4 := w.extractLsb' 8 4
  let val : Byte := w.extractLsb' 0 8
  match op with
  | 0x0#4 => .pwrOn val
  | 0x1#4 => .pwrOff val
  | 0x2#4 => .setFan val
  | 0x3#4 => .setFlame val
  | 0x4#4 => .setAux1 val
  | 0x5#4 => .setAux2 val
  | 0x6#4 => .seqStart val
  | 0x7#4 => .seqStop val
  | _     => .reserved op val

/-- The row of a command code, with its fields (R99). -/
def commandOf (code : Byte) (f : FrameFields) : Except DecodeError Instr :=
  match code with
  | 0x01#8 => .ok (.powerOn f)
  | 0x02#8 => .ok (.powerOff f)
  | 0x31#8 => .ok (.flame1 f)
  | 0x32#8 => .ok (.flame2 f)
  | 0x33#8 => .ok (.flame3 f)
  | 0x34#8 => .ok (.flame4 f)
  | 0x35#8 => .ok (.flame5 f)
  | 0x40#8 => .ok (.fan0 f)
  | 0x41#8 => .ok (.fan1 f)
  | 0x42#8 => .ok (.fan2 f)
  | 0x43#8 => .ok (.fan3 f)
  | 0x50#8 => .ok (.aux10 f)
  | 0x51#8 => .ok (.aux11 f)
  | 0x52#8 => .ok (.aux12 f)
  | 0x53#8 => .ok (.aux13 f)
  | 0x60#8 => .ok (.aux20 f)
  | 0x61#8 => .ok (.aux21 f)
  | _      => .error .unknownCode

/-- A frame word (R94). -/
def decodeFrame (w : BitVec 52) : Except DecodeError Instr :=
  if w.extractLsb' 48 4 = 0b1010#4 then
    commandOf (w.extractLsb' 16 8)
      { start0 := w.extractLsb' 40 8
        start1 := w.extractLsb' 32 8
        start2 := w.extractLsb' 24 8
        enc := w.extractLsb' 8 8
        inv := w.extractLsb' 0 8 }
  else .error .badHeader

/-- The decoder. -/
def decode : CodeWord → Except DecodeError Instr
  | .req12 w => .ok (decodeReq w)
  | .frame52 w => decodeFrame w

/-- The number that bytes stand for, least significant byte first. -/
def bytesToNat : List Byte → Nat
  | [] => 0
  | b :: bs => b.toNat + 256 * bytesToNat bs

/-- The `n` low bytes of a number, least significant first. -/
def natToBytes : Nat → Nat → List Byte
  | 0, _ => []
  | n + 1, w => BitVec.ofNat 8 w :: natToBytes n (w / 256)

/-- The decoder over bytes: two bytes are a request, seven a frame. -/
def decodeBytes (bs : List Byte) : Except DecodeError Instr :=
  if bs.length = 2 then
    if bytesToNat bs < 2 ^ 12 then decode (.req12 (BitVec.ofNat 12 (bytesToNat bs)))
    else .error .paddingNotZero
  else if bs.length = 7 then
    if bytesToNat bs < 2 ^ 52 then decode (.frame52 (BitVec.ofNat 52 (bytesToNat bs)))
    else .error .paddingNotZero
  else .error .wrongLength

/-- The instruction of a row of spec/opcode_table.json whose bits are `w`, `nbits` of them in whole bytes. -/
def decodeTableWord (nbits w : Nat) : Option Instr :=
  match decodeBytes (natToBytes ((nbits + 7) / 8) w) with
  | .ok i => some i
  | .error _ => none

/-- The request word of an operation and its argument (R90). -/
def reqWord (op : BitVec 4) (val : Byte) : BitVec 12 :=
  op ++ val

/-- The frame word of a command code and its other fields (R94). -/
def frameWord (code : Byte) (f : FrameFields) : BitVec 52 :=
  0b1010#4 ++ f.start0 ++ f.start1 ++ f.start2 ++ code ++ f.enc ++ f.inv

/-- The encoder. -/
def encode : Instr → CodeWord
  | .pwrOn v => .req12 (reqWord 0x0#4 v)
  | .pwrOff v => .req12 (reqWord 0x1#4 v)
  | .setFan n => .req12 (reqWord 0x2#4 n)
  | .setFlame n => .req12 (reqWord 0x3#4 n)
  | .setAux1 n => .req12 (reqWord 0x4#4 n)
  | .setAux2 n => .req12 (reqWord 0x5#4 n)
  | .seqStart v => .req12 (reqWord 0x6#4 v)
  | .seqStop v => .req12 (reqWord 0x7#4 v)
  | .reserved op v => .req12 (reqWord op v)
  | .powerOn f => .frame52 (frameWord 0x01#8 f)
  | .powerOff f => .frame52 (frameWord 0x02#8 f)
  | .flame1 f => .frame52 (frameWord 0x31#8 f)
  | .flame2 f => .frame52 (frameWord 0x32#8 f)
  | .flame3 f => .frame52 (frameWord 0x33#8 f)
  | .flame4 f => .frame52 (frameWord 0x34#8 f)
  | .flame5 f => .frame52 (frameWord 0x35#8 f)
  | .fan0 f => .frame52 (frameWord 0x40#8 f)
  | .fan1 f => .frame52 (frameWord 0x41#8 f)
  | .fan2 f => .frame52 (frameWord 0x42#8 f)
  | .fan3 f => .frame52 (frameWord 0x43#8 f)
  | .aux10 f => .frame52 (frameWord 0x50#8 f)
  | .aux11 f => .frame52 (frameWord 0x51#8 f)
  | .aux12 f => .frame52 (frameWord 0x52#8 f)
  | .aux13 f => .frame52 (frameWord 0x53#8 f)
  | .aux20 f => .frame52 (frameWord 0x60#8 f)
  | .aux21 f => .frame52 (frameWord 0x61#8 f)

/-- The bytes of a word, least significant first: two for a request, seven for a frame. -/
def CodeWord.bytes : CodeWord → List Byte
  | .req12 w => natToBytes 2 w.toNat
  | .frame52 w => natToBytes 7 w.toNat

/-- The encoder over bytes. -/
def encodeBytes (i : Instr) : List Byte :=
  (encode i).bytes

end Sys2Proof
end

