-- ==== Sys2Proof/Machine/FrameEncoder.lean ====
section
/-! DEFINITION. The encoding transform and the frame (41_frame_encoder.md R150 to R155; 30_encoding.md R94, R95), the
durations of a symbol (R96), and which configurations are legal (00_scope.md R8). -/

namespace Sys2Proof

/-- The constraints of R8. A step under any other configuration is refused (log 5). -/
abbrev Config.legal (c : Config) : Prop :=
  c.t0 < c.t1 ∧
  (1 ≤ c.t0 ∧ 1 ≤ c.hdrBitPause ∧ 1 ≤ c.hdrSegPause ∧ 1 ≤ c.bodyBitPause ∧ 1 ≤ c.bodySegPause ∧
    1 ≤ c.msgPause ∧ 1 ≤ c.maxWait ∧ 1 ≤ c.seqWait) ∧
  (c.t1 ≤ c.maxWait ∧ c.hdrBitPause ≤ c.maxWait ∧ c.hdrSegPause ≤ c.maxWait ∧
    c.bodyBitPause ≤ c.maxWait ∧ c.bodySegPause ≤ c.maxWait) ∧
  c.maxWait ≤ 16383 ∧
  (c.msgPause < 2 ^ 20 ∧ c.seqWait < 2 ^ 20)

end Sys2Proof

namespace Sys2Proof.Machine

/-- `Encode(c) = (c + K − 1) mod 256` (R150). -/
def encodeByte (k c : Byte) : Byte :=
  c + k - 1#8

/-- `Decode(e) = (e − K + 1) mod 256`, the inverse of `Encode` (R153). -/
def decodeByte (k e : Byte) : Byte :=
  e - k + 1#8

/-- `Inv(e)` (R151). -/
def invByte (e : Byte) : Byte :=
  ~~~e

/-- The fields that the configuration and the code give a frame (R94, R97). -/
def frameFieldsOf (cfg : Config) (code : Byte) : FrameFields where
  start0 := cfg.start0
  start1 := cfg.start1
  start2 := cfg.start2
  enc := encodeByte cfg.k code
  inv := invByte (encodeByte cfg.k code)

/-- `FrameBits(c)` (R94). -/
def frameBits (cfg : Config) (code : Byte) : BitVec 52 :=
  frameWord code (frameFieldsOf cfg code)

/-- `FrameSegments(c)`: value and number of bits of each segment, in order (R152). -/
def frameSegments (cfg : Config) (code : Byte) : List (Byte × Nat) :=
  [ (0b1010#8, 4),
    (cfg.start0, 8), (cfg.start1, 8), (cfg.start2, 8),
    (code, 8), (encodeByte cfg.k code, 8), (invByte (encodeByte cfg.k code), 8) ]

/-- `SegBits(i)` (R95). -/
def segBits (i : BitVec 3) : Nat :=
  if i = 0#3 then 4 else 8

/-- `SegVal(i)` for the command `c` and its encoding `e` (R95, R183). No rule asks for segment 7 (log 12). -/
def segVal (cfg : Config) (i : BitVec 3) (c e : Byte) : Byte :=
  match i with
  | 0#3 => 0b1010#8
  | 1#3 => cfg.start0
  | 2#3 => cfg.start1
  | 3#3 => cfg.start2
  | 4#3 => c
  | 5#3 => e
  | _ => invByte e

/-- `BitPause(i)` (R95). -/
def bitPause (cfg : Config) (i : BitVec 3) : Nat :=
  if i = 0#3 then cfg.hdrBitPause else cfg.bodyBitPause

/-- `SegPause(i)` (R95). -/
def segPause (cfg : Config) (i : BitVec 3) : Nat :=
  if i = 0#3 then cfg.hdrSegPause else cfg.bodySegPause

/-- The high time of a bit (R96). -/
def highTime (cfg : Config) (bit : Bool) : Nat :=
  if bit then cfg.t1 else cfg.t0

end Sys2Proof.Machine
end

