-- ==== Sys2Proof/Machine/Rom.lean ====
section
/-! DEFINITION. The one memory of the encoder, the command ROM (20_memory.md R60, R61, R62), and the lookups: by name
(40_command_table.md R120, R121) and by request (R123). The ROM is a constant and not state (R75; log 14). -/

namespace Sys2Proof.Machine

/-- A row of the ROM (R61): its key, its tag (`val` is `none` where the row does not compare it), its code. -/
structure RomRow where
  key  : String
  op   : BitVec 4
  val  : Option Byte
  code : Byte
deriving DecidableEq, Repr

/-- The seventeen rows in address order (R61). -/
def romRows : List RomRow :=
  [ ⟨"PowerOn",  0x0#4, none,       0x01#8⟩,
    ⟨"PowerOff", 0x1#4, none,       0x02#8⟩,
    ⟨"Flame1",   0x3#4, some 0x1#8, 0x31#8⟩,
    ⟨"Flame2",   0x3#4, some 0x2#8, 0x32#8⟩,
    ⟨"Flame3",   0x3#4, some 0x3#8, 0x33#8⟩,
    ⟨"Flame4",   0x3#4, some 0x4#8, 0x34#8⟩,
    ⟨"Flame5",   0x3#4, some 0x5#8, 0x35#8⟩,
    ⟨"Fan0",     0x2#4, some 0x0#8, 0x40#8⟩,
    ⟨"Fan1",     0x2#4, some 0x1#8, 0x41#8⟩,
    ⟨"Fan2",     0x2#4, some 0x2#8, 0x42#8⟩,
    ⟨"Fan3",     0x2#4, some 0x3#8, 0x43#8⟩,
    ⟨"AUX10",    0x4#4, some 0x0#8, 0x50#8⟩,
    ⟨"AUX11",    0x4#4, some 0x1#8, 0x51#8⟩,
    ⟨"AUX12",    0x4#4, some 0x2#8, 0x52#8⟩,
    ⟨"AUX13",    0x4#4, some 0x3#8, 0x53#8⟩,
    ⟨"AUX20",    0x5#4, some 0x0#8, 0x60#8⟩,
    ⟨"AUX21",    0x5#4, some 0x1#8, 0x61#8⟩ ]

/-- A memory: its bytes by address. An unlisted address does not exist. -/
abbrev Memory := List Host.Cell

/-- The canonical form of a memory: addresses strictly rising. An unlisted address reads as no byte, so no entry can
equal what it reads as. -/
def Memory.wf : Memory → Bool
  | [] => true
  | [_] => true
  | a :: b :: m => decide (a.1 < b.1) && Memory.wf (b :: m)

/-- Cells for the codes of rows, from an address on. -/
def romCellsFrom : Nat → List RomRow → Memory
  | _, [] => []
  | a, r :: rs => (a, r.code) :: romCellsFrom (a + 1) rs

/-- The ROM: addresses 0 to 16, one code byte each (R60, R61). -/
def rom : Memory :=
  romCellsFrom 0 romRows

/-- The byte at an address of a memory. -/
def Memory.read : Memory → Nat → Option Byte
  | [], _ => none
  | c :: m, a => if c.1 = a then some c.2 else Memory.read m a

/-- `MemRead(a, 1)` (R62): `none` at the addresses above 16, which do not exist and which no rule reads. -/
def memRead (a : Nat) : Option Byte :=
  rom.read a

/-- `resolve` (R120): the code of the row with exactly this key. -/
def resolve (name : String) : Option Byte :=
  (romRows.find? fun r => r.key == name).map RomRow.code

/-- `resolveWithValue` (R121, R93): the prefix with the decimal numeral of the value. A negative value has a minus sign
(PRESUMED with R121, log 15). -/
def resolveWithValue (pre : String) (value : Int) : Option Byte :=
  resolve (pre ++ toString value)

/-- `KeyOf` (30_encoding.md R92): the name a request stands for. -/
def keyOf (op : BitVec 4) (val : Byte) : Option String :=
  match op with
  | 0x0#4 => some "PowerOn"
  | 0x1#4 => some "PowerOff"
  | 0x2#4 => some ("Fan" ++ toString val.toNat)
  | 0x3#4 => some ("Flame" ++ toString val.toNat)
  | 0x4#4 => some ("AUX1" ++ toString val.toNat)
  | 0x5#4 => some ("AUX2" ++ toString val.toNat)
  | _ => none

/-- A row answers a request: the tag of R61. -/
def RomRow.answers (r : RomRow) (op : BitVec 4) (val : Byte) : Bool :=
  r.op == op && (match r.val with | none => true | some v => v == val)

/-- The associative form of the lookup (R123, "Equivalently"). -/
def romMatch (op : BitVec 4) (val : Byte) : Option Byte :=
  (romRows.find? fun r => r.answers op val).map RomRow.code

/-- `RomLookup` (R123). -/
def romLookup (op : BitVec 4) (val : Byte) : Option Byte :=
  match op with
  | 0x0#4 => memRead 0
  | 0x1#4 => memRead 1
  | 0x3#4 => if 1 ≤ val.toNat ∧ val.toNat ≤ 5 then memRead (1 + val.toNat) else none
  | 0x2#4 => if val.toNat ≤ 3 then memRead (7 + val.toNat) else none
  | 0x4#4 => if val.toNat ≤ 3 then memRead (11 + val.toNat) else none
  | 0x5#4 => if val.toNat ≤ 1 then memRead (15 + val.toNat) else none
  | _ => none

end Sys2Proof.Machine
end

