-- ==== Sys2Proof/Machine/State.lean ====
section
/-! DEFINITION. The state of the encoder as plain data: the twelve registers of 10_state.md R22 to R34, the configuration
(R39) and what the host drives on the input ports (R20, R21); the state after reset (R42); why a step can stop. -/

namespace Sys2Proof.Machine

/-- `st`, the phase (R22). The codes 6 and 7 of the three bits are never taken and cannot be written (log 13). -/
inductive Phase where
  | idle
  | high
  | low
  | sgap
  | mgap
  | qgap
deriving DecidableEq, Repr

/-- `seqid`, the sequence running (R33). The code 3 is never taken and cannot be written (log 13). -/
inductive SeqId where
  | none
  | start
  | stop
deriving DecidableEq, Repr

/-- What the host drives on the input ports in one tick (R21). -/
structure Inputs where
  rst      : Bool
  reqValid : Bool
  reqOp    : BitVec 4
  reqVal   : Byte
deriving DecidableEq, Repr

/-- The state. `cfg` and `host` are the model's own fields (log 1 and 4); every other field is a register. -/
structure State where
  st    : Phase
  rfOut : Bool
  cmd   : Byte
  enc   : Byte
  seg   : BitVec 3
  sh    : Byte
  nbit  : BitVec 3
  rep   : BitVec 4
  tcnt  : BitVec 14
  rem   : BitVec 20
  seqid : SeqId
  seqpc : BitVec 2
  cfg   : Config
  host  : List Inputs
deriving DecidableEq, Repr

/-- The encoder raises no exception (60_exceptions.md R240): there is no reason to fault (log 16). -/
inductive Fault where
deriving DecidableEq, Repr

/-- Why a step has no meaning. -/
inductive Refusal where
  /-- Raised by `exec` for an instruction that has no meaning yet. Safe: the machine stops. No arm raises it. -/
  | notModelled (mnemonic : String)
  /-- Raised by every step and meaning when the configuration breaks 00_scope.md R8. Safe: the machine stops (log 5). -/
  | illegalConfiguration
deriving DecidableEq, Repr

/-- The outcome of a step or of a meaning. -/
abbrev Result := Host.Outcome State Fault Refusal

/-- The registers after reset (R42), under a configuration and with a host still to come. -/
def State.resetWith (cfg : Config) (host : List Inputs) : State where
  st := .idle
  rfOut := false
  cmd := 0x00#8
  enc := 0x00#8
  seg := 0#3
  sh := 0x00#8
  nbit := 0#3
  rep := 0#4
  tcnt := 0#14
  rem := 0#20
  seqid := .none
  seqpc := 0#2
  cfg := cfg
  host := host

/-- The machine right after reset, with a host that presents nothing (log 4, 10). -/
def State.reset : State :=
  .resetWith Config.machine []

end Sys2Proof.Machine
end

