-- ==== Sys2Proof/Machine/Operands.lean ====
section
/-! DEFINITION. The operand forms: what the ports show in this tick, the request word read from them (10_state.md R21;
30_encoding.md R90), and the request that reaches an instruction (40_command_table.md R124 to R140). -/

namespace Sys2Proof.Machine

/-- The ports of a tick in which the host presents nothing. -/
def Inputs.quiet : Inputs :=
  ⟨false, false, 0x0#4, 0x00#8⟩

/-- The ports of a tick in which the host presents a request word. -/
def Inputs.ofWord (w : BitVec 12) : Inputs :=
  ⟨false, true, w.extractLsb' 8 4, w.extractLsb' 0 8⟩

/-- The request word on the ports (R90). -/
def Inputs.word (p : Inputs) : BitVec 12 :=
  reqWord p.reqOp p.reqVal

/-- What the ports show in this tick; a host whose list has ended presents nothing (log 4). -/
def State.inputs (s : State) : Inputs :=
  s.host.headD Inputs.quiet

/-- The instruction the ports show in this tick. -/
def State.fetched (s : State) : Instr :=
  decodeReq s.inputs.word

/-- The request word that brings the encoder to run an instruction: of a request its own word, of a command row the
word of the request that reaches the row (R124 to R140, `request_word` in spec/opcode_table.json). -/
def requestFor : Instr → BitVec 12
  | .pwrOn v => reqWord 0x0#4 v
  | .pwrOff v => reqWord 0x1#4 v
  | .setFan n => reqWord 0x2#4 n
  | .setFlame n => reqWord 0x3#4 n
  | .setAux1 n => reqWord 0x4#4 n
  | .setAux2 n => reqWord 0x5#4 n
  | .seqStart v => reqWord 0x6#4 v
  | .seqStop v => reqWord 0x7#4 v
  | .reserved op v => reqWord op v
  | .powerOn _ => 0x000#12
  | .powerOff _ => 0x100#12
  | .flame1 _ => 0x301#12
  | .flame2 _ => 0x302#12
  | .flame3 _ => 0x303#12
  | .flame4 _ => 0x304#12
  | .flame5 _ => 0x305#12
  | .fan0 _ => 0x200#12
  | .fan1 _ => 0x201#12
  | .fan2 _ => 0x202#12
  | .fan3 _ => 0x203#12
  | .aux10 _ => 0x400#12
  | .aux11 _ => 0x401#12
  | .aux12 _ => 0x402#12
  | .aux13 _ => 0x403#12
  | .aux20 _ => 0x500#12
  | .aux21 _ => 0x501#12

end Sys2Proof.Machine
end

