-- ==== Sys2Proof/Machine/Flags.lean ====
section
/-! DEFINITION. The status outputs (10_state.md R36, R37, R38): functions of the phase and of `rst`, not registers. -/

namespace Sys2Proof.Machine

/-- `busy` (R36). -/
def State.busy (s : State) : Bool :=
  s.st != .idle

/-- `req_ready` (R37). -/
def State.reqReady (s : State) : Bool :=
  s.st == .idle && !s.inputs.rst

/-- `irq_inhibit` (R38). -/
def State.irqInhibit (s : State) : Bool :=
  s.st == .high || s.st == .low || s.st == .sgap || s.st == .mgap

/-- A request is accepted in this tick (R21). -/
def State.accepts (s : State) : Bool :=
  !s.inputs.rst && s.inputs.reqValid && s.reqReady

/-- All that the host sees of the encoder (R21, R30). -/
structure Outputs where
  reqReady   : Bool
  busy       : Bool
  irqInhibit : Bool
  rfOut      : Bool
deriving DecidableEq, Repr

/-- The output ports in this tick. -/
def State.outputs (s : State) : Outputs :=
  ⟨s.reqReady, s.busy, s.irqInhibit, s.rfOut⟩

/-- The code of a phase in the three bits of `st` (R22). -/
def Phase.code : Phase → BitVec 3
  | .idle => 0#3
  | .high => 1#3
  | .low => 2#3
  | .sgap => 3#3
  | .mgap => 4#3
  | .qgap => 5#3

/-- The code of a sequence in the two bits of `seqid` (R33). -/
def SeqId.code : SeqId → BitVec 2
  | .none => 0#2
  | .start => 1#2
  | .stop => 2#2

end Sys2Proof.Machine
end

