-- ==== Sys2Proof/Machine/Ops.lean ====
section
/-! DEFINITION. The operations of the state machine (42_transmitter.md, Part B, R180 to R193) and of reset
(70_reset_and_hazards.md R270). The encoder takes no exception and returns from none (60_exceptions.md R240, R248,
R249), so there is no such operation here (log 16). -/

namespace Sys2Proof.Machine

/-- The inputs of this tick are used up. -/
def State.advance (s : State) : State :=
  { s with host := s.host.tail }

/-- A tick with `rst = 1` (R270): every register at its reset value, the configuration as it was (R272). -/
def State.resetTick (s : State) : State :=
  .resetWith s.cfg s.host.tail

/-- Run an operation under a legal configuration, refuse any other (00_scope.md R8; log 5). -/
def State.guarded (s : State) (f : State → State) : Result :=
  if s.cfg.legal then .next (f s) else .refused .illegalConfiguration

/-- A duration as `tcnt` holds it. Under a legal configuration nothing is cut off (R283; log 19). -/
def ticks (d : Nat) : BitVec 14 :=
  BitVec.ofNat 14 d

/-- The shift register that segment `i` loads: the header left-aligned, a body segment whole (R183). -/
def loadedShift (cfg : Config) (i : BitVec 3) (c e : Byte) : Byte :=
  if i = 0#3 then (segVal cfg i c e).extractLsb' 0 4 ++ 0b0000#4 else segVal cfg i c e

/-- `LoadSeg(i, c, e)` (R183). -/
def loadSeg (i : BitVec 3) (c e : Byte) (s : State) : State :=
  { s with sh := loadedShift s.cfg i c e, nbit := if i = 0#3 then 3#3 else 7#3 }

/-- `StartBit(s)` for the shift register value `v` (R184). -/
def startBit (v : Byte) (s : State) : State :=
  { s with st := .high, rfOut := true, tcnt := ticks (highTime s.cfg (v.getLsbD 7)) }

/-- `StartTx(c)` (R182). -/
def startTx (c : Byte) (s : State) : State :=
  let e := encodeByte s.cfg.k c
  startBit 0xA0#8 (loadSeg 0#3 c e { s with cmd := c, enc := e, rep := 0#4, seg := 0#3 })

/-- `LoadWait(D)` (R190). -/
def loadWait (d : Nat) (s : State) : State :=
  if s.cfg.maxWait < d then
    { s with tcnt := ticks s.cfg.maxWait, rem := BitVec.ofNat 20 (d - s.cfg.maxWait) }
  else
    { s with tcnt := ticks d, rem := 0#20 }

/-- `Last(id)` (R191). -/
def SeqId.last : SeqId → Nat
  | .none => 0
  | .start => 2
  | .stop => 1

/-- `TxDone(id, pc)` (R191). -/
def txDone (id : SeqId) (pc : Nat) (s : State) : State :=
  if id ≠ .none ∧ pc < id.last then
    loadWait s.cfg.seqWait { s with st := .qgap, seqid := id, seqpc := BitVec.ofNat 2 pc }
  else
    { s with st := .idle, seqid := .none, seqpc := 0#2 }

/-- `SeqKey(id, pc)`: operation and value of a step (R193). There are five steps; a pair that is none of them, which no
reachable state asks for, has no key (log 12). -/
def seqKey : SeqId → Nat → Option (BitVec 4 × Byte)
  | .start, 0 => some (0x0#4, 0#8)
  | .start, 1 => some (0x2#4, 0#8)
  | .start, 2 => some (0x3#4, 1#8)
  | .stop, 0 => some (0x2#4, 0#8)
  | .stop, 1 => some (0x1#4, 0#8)
  | _, _ => none

/-- The lookup of a step of a sequence (R193). -/
def seqLookup (id : SeqId) (pc : Nat) : Option Byte :=
  match seqKey id pc with
  | some (op, val) => romLookup op val
  | none => none

/-- `SeqStep(id, pc)` (R193). -/
def seqStep (id : SeqId) (pc : Nat) (s : State) : State :=
  let s' := { s with seqid := id, seqpc := BitVec.ofNat 2 pc }
  match seqLookup id pc with
  | some c => startTx c s'
  | none => txDone id pc s'

/-- `Dispatch(op, val)` (R181). -/
def dispatch (op : BitVec 4) (val : Byte) (s : State) : State :=
  if op.toNat ≤ 5 then
    match romLookup op val with
    | some c => startTx c { s with seqid := .none, seqpc := 0#2 }
    | none => s
  else if op.toNat = 6 then seqStep .start 0 s
  else if op.toNat = 7 then seqStep .stop 0 s
  else s

/-- A request presented in this state: dispatched in `IDLE`; in any other phase the port is not looked at
(10_state.md R37; 43_public_operations.md R229; log 6). -/
def request (op : BitVec 4) (val : Byte) (s : State) : Result :=
  s.guarded fun s => if s.st = .idle then dispatch op val s else s

/-- The ticks in which a command can start: in `IDLE`, and in the last tick of the wait of a sequence
(20_memory.md R72; log 7). -/
def State.canStart (s : State) : Bool :=
  s.st == .idle || (s.st == .qgap && decide (s.tcnt ≤ 1#14) && s.rem == 0#20)

/-- The row at ROM address `a` is selected: its command starts, in a tick in which one can
(40_command_table.md R124 to R140; 42_transmitter.md R182; log 7). -/
def command (a : Nat) (s : State) : Result :=
  s.guarded fun s =>
    if s.canStart then
      match memRead a with
      | some c => startTx c s
      | none => s
    else s

/-- `PhaseEnd` in `HIGH` (R186). -/
def endHigh (s : State) : State :=
  { s with st := .low, rfOut := false, tcnt := ticks (bitPause s.cfg s.seg) }

/-- `PhaseEnd` in `LOW` (R187). -/
def endLow (s : State) : State :=
  if 0#3 < s.nbit then
    startBit (s.sh <<< 1) { s with sh := s.sh <<< 1, nbit := s.nbit - 1#3 }
  else
    { s with st := .sgap, tcnt := ticks (segPause s.cfg s.seg) }

/-- `PhaseEnd` in `SGAP` (R188). -/
def endSgap (s : State) : State :=
  if s.seg < 6#3 then
    startBit (loadedShift s.cfg (s.seg + 1#3) s.cmd s.enc)
      (loadSeg (s.seg + 1#3) s.cmd s.enc { s with seg := s.seg + 1#3 })
  else if s.rep < 9#4 then
    loadWait s.cfg.msgPause { s with st := .mgap }
  else
    txDone s.seqid s.seqpc.toNat s

/-- `PhaseEnd` in `MGAP` (R189). -/
def endMgap (s : State) : State :=
  if 0#20 < s.rem then
    loadWait s.rem.toNat s
  else
    startBit (loadedShift s.cfg 0#3 s.cmd s.enc)
      (loadSeg 0#3 s.cmd s.enc { s with rep := s.rep + 1#4, seg := 0#3 })

/-- `PhaseEnd` in `QGAP` (R192). -/
def endQgap (s : State) : State :=
  if 0#20 < s.rem then
    loadWait s.rem.toNat s
  else
    seqStep s.seqid (s.seqpc.toNat + 1) s

/-- `PhaseEnd` (R186 to R192). `IDLE` has no phase end: no step comes here with it. -/
def phaseEnd (s : State) : State :=
  match s.st with
  | .idle => s
  | .high => endHigh s
  | .low => endLow s
  | .sgap => endSgap s
  | .mgap => endMgap s
  | .qgap => endQgap s

/-- The timer outside `IDLE` (R180, R185); `tcnt = 0` counts as 1. -/
def timerTick (s : State) : State :=
  if 1#14 < s.tcnt then { s with tcnt := s.tcnt - 1#14 } else phaseEnd s

end Sys2Proof.Machine
end

