-- ==== Sys2Proof/Machine/Commands.lean ====
section
/-! DEFINITION. The seventeen commands, one for each row of the ROM (40_command_table.md R124 to R140): the row is
selected and its transmission starts. The fields of the frame come from the configuration and the code (41_frame_encoder.md
R152), never from an operand (30_encoding.md R101; log 7). -/

namespace Sys2Proof.Machine

/-- `PowerOn`, ROM address 0 (R124). -/
def execPowerOn (_f : FrameFields) (s : State) : Result :=
  command 0 s

/-- `PowerOff`, ROM address 1 (R125). -/
def execPowerOff (_f : FrameFields) (s : State) : Result :=
  command 1 s

/-- `Flame1`, ROM address 2 (R126). -/
def execFlame1 (_f : FrameFields) (s : State) : Result :=
  command 2 s

/-- `Flame2`, ROM address 3 (R127). -/
def execFlame2 (_f : FrameFields) (s : State) : Result :=
  command 3 s

/-- `Flame3`, ROM address 4 (R128). -/
def execFlame3 (_f : FrameFields) (s : State) : Result :=
  command 4 s

/-- `Flame4`, ROM address 5 (R129). -/
def execFlame4 (_f : FrameFields) (s : State) : Result :=
  command 5 s

/-- `Flame5`, ROM address 6 (R130). -/
def execFlame5 (_f : FrameFields) (s : State) : Result :=
  command 6 s

/-- `Fan0`, ROM address 7 (R131). -/
def execFan0 (_f : FrameFields) (s : State) : Result :=
  command 7 s

/-- `Fan1`, ROM address 8 (R132). -/
def execFan1 (_f : FrameFields) (s : State) : Result :=
  command 8 s

/-- `Fan2`, ROM address 9 (R133). -/
def execFan2 (_f : FrameFields) (s : State) : Result :=
  command 9 s

/-- `Fan3`, ROM address 10 (R134). -/
def execFan3 (_f : FrameFields) (s : State) : Result :=
  command 10 s

/-- `AUX10`, ROM address 11 (R135). -/
def execAux10 (_f : FrameFields) (s : State) : Result :=
  command 11 s

/-- `AUX11`, ROM address 12 (R136). -/
def execAux11 (_f : FrameFields) (s : State) : Result :=
  command 12 s

/-- `AUX12`, ROM address 13 (R137). -/
def execAux12 (_f : FrameFields) (s : State) : Result :=
  command 13 s

/-- `AUX13`, ROM address 14 (R138). -/
def execAux13 (_f : FrameFields) (s : State) : Result :=
  command 14 s

/-- `AUX20`, ROM address 15 (R139). -/
def execAux20 (_f : FrameFields) (s : State) : Result :=
  command 15 s

/-- `AUX21`, ROM address 16 (R140). -/
def execAux21 (_f : FrameFields) (s : State) : Result :=
  command 16 s

end Sys2Proof.Machine
end

