-- ==== Sys2Proof/Machine/Levels.lean ====
section
/-! DEFINITION. The four requests with a level (43_public_operations.md R222 to R225): a level with no row of the ROM is
a miss and changes nothing (R229). -/

namespace Sys2Proof.Machine

/-- `SET_FAN n` (R222). -/
def execSetFan (n : Byte) (s : State) : Result :=
  request 0x2#4 n s

/-- `SET_FLAME n` (R223). -/
def execSetFlame (n : Byte) (s : State) : Result :=
  request 0x3#4 n s

/-- `SET_AUX1 n` (R224). -/
def execSetAux1 (n : Byte) (s : State) : Result :=
  request 0x4#4 n s

/-- `SET_AUX2 n` (R225). -/
def execSetAux2 (n : Byte) (s : State) : Result :=
  request 0x5#4 n s

end Sys2Proof.Machine
end

