-- ==== Sys2Proof/Machine/Power.lean ====
section
/-! DEFINITION. The two power requests (43_public_operations.md R220, R221). `req_val` is ignored. -/

namespace Sys2Proof.Machine

/-- `PWR_ON` (R220). -/
def execPwrOn (val : Byte) (s : State) : Result :=
  request 0x0#4 val s

/-- `PWR_OFF` (R221). -/
def execPwrOff (val : Byte) (s : State) : Result :=
  request 0x1#4 val s

end Sys2Proof.Machine
end

