-- ==== Sys2Proof/Machine/Sequences.lean ====
section
/-! DEFINITION. The two sequences (43_public_operations.md R226, R227) and the reserved operations (R228). -/

namespace Sys2Proof.Machine

/-- `SEQ_START` (R226): step 0 starts here, the later steps at the ends of the waits. -/
def execSeqStart (val : Byte) (s : State) : Result :=
  request 0x6#4 val s

/-- `SEQ_STOP` (R227). -/
def execSeqStop (val : Byte) (s : State) : Result :=
  request 0x7#4 val s

/-- The reserved operations 0x8 to 0xF (R228): accepted, and nothing changes. -/
def execReserved (_op : BitVec 4) (_val : Byte) (s : State) : Result :=
  s.guarded fun s => s

end Sys2Proof.Machine
end

