-- ==== Sys2Proof/Machine/Dispatch.lean ====
section
/-! DEFINITION. The meaning of every instruction, one arm for each. -/

namespace Sys2Proof.Machine

def exec (i : Instr) (s : State) : Host.Outcome State Fault Refusal :=
  match i with
  | .pwrOn val => Sys2Proof.Machine.execPwrOn val s
  | .pwrOff val => Sys2Proof.Machine.execPwrOff val s
  | .setFan n => Sys2Proof.Machine.execSetFan n s
  | .setFlame n => Sys2Proof.Machine.execSetFlame n s
  | .setAux1 n => Sys2Proof.Machine.execSetAux1 n s
  | .setAux2 n => Sys2Proof.Machine.execSetAux2 n s
  | .seqStart val => Sys2Proof.Machine.execSeqStart val s
  | .seqStop val => Sys2Proof.Machine.execSeqStop val s
  | .reserved op val => Sys2Proof.Machine.execReserved op val s
  | .powerOn f => Sys2Proof.Machine.execPowerOn f s
  | .powerOff f => Sys2Proof.Machine.execPowerOff f s
  | .flame1 f => Sys2Proof.Machine.execFlame1 f s
  | .flame2 f => Sys2Proof.Machine.execFlame2 f s
  | .flame3 f => Sys2Proof.Machine.execFlame3 f s
  | .flame4 f => Sys2Proof.Machine.execFlame4 f s
  | .flame5 f => Sys2Proof.Machine.execFlame5 f s
  | .fan0 f => Sys2Proof.Machine.execFan0 f s
  | .fan1 f => Sys2Proof.Machine.execFan1 f s
  | .fan2 f => Sys2Proof.Machine.execFan2 f s
  | .fan3 f => Sys2Proof.Machine.execFan3 f s
  | .aux10 f => Sys2Proof.Machine.execAux10 f s
  | .aux11 f => Sys2Proof.Machine.execAux11 f s
  | .aux12 f => Sys2Proof.Machine.execAux12 f s
  | .aux13 f => Sys2Proof.Machine.execAux13 f s
  | .aux20 f => Sys2Proof.Machine.execAux20 f s
  | .aux21 f => Sys2Proof.Machine.execAux21 f s

end Sys2Proof.Machine
end

