-- ==== Sys2Proof/Machine/Step.lean ====
section
/-! DEFINITION. One tick (42_transmitter.md R180), and how the host places an instruction on the ports. -/

namespace Sys2Proof.Machine

/-- One tick, in the order of tests of R180 and R247: reset, then a request in `IDLE`, then the timer. A configuration
that breaks R8 is refused. -/
def step (s : State) : Host.Outcome State Fault Refusal :=
  if s.cfg.legal then
    if s.inputs.rst then .next s.resetTick
    else if s.st = .idle then
      if s.inputs.reqValid then exec s.fetched s.advance else .next s.advance
    else .next (timerTick s.advance)
  else .refused .illegalConfiguration

/-- The state in which the host presents, in this tick, the request that runs an instruction, and the encoder is ready
for it. A frame word is not presented: the request that reaches its row is (log 10). -/
def State.withRequest (s : State) (w : BitVec 12) : State :=
  { s with
    st := .idle
    rfOut := false
    seqid := .none
    seqpc := 0#2
    host := Inputs.ofWord w :: s.host.tail }

/-- The instruction of a table word placed where the next step takes its instruction: on the request port (log 10). -/
def State.withFetchWord (s : State) (nbits w : Nat) : State :=
  match decodeTableWord nbits w with
  | some i => s.withRequest (requestFor i)
  | none => s

end Sys2Proof.Machine
end

