-- ==== Sys2Proof/Machine/Waveform.lean ====
section
/-! DEFINITION. Waveforms (00_scope.md R11) and the waveform functions of 42_transmitter.md, Part A (R170 to R174). -/

namespace Sys2Proof.Machine

/-- A run: a level of the pin held for a number of ticks (R11). -/
abbrev Run := Bool × Nat

/-- A waveform: runs in time order (R11). -/
abbrev Waveform := List Run

/-- `Dur(w)` (R11). -/
def dur : Waveform → Nat
  | [] => 0
  | r :: w => r.2 + dur w

/-- A run put before a waveform in normal form: dropped if it is empty, merged with a first run of the same level. -/
def pushRun (r : Run) (w : Waveform) : Waveform :=
  if r.2 = 0 then w
  else
    match w with
    | [] => [r]
    | q :: w' => if r.1 = q.1 then (r.1, r.2 + q.2) :: w' else r :: w

/-- `Norm(w)` (R11). -/
def norm : Waveform → Waveform
  | [] => []
  | r :: w => pushRun r (norm w)

/-- The run-length form of the levels seen in consecutive ticks (R199). -/
def runLength : List Bool → Waveform
  | [] => []
  | b :: bs => pushRun (b, 1) (runLength bs)

/-- `EmitBit(b, p)` (R170). -/
def emitBit (cfg : Config) (b : Bool) (p : Nat) : Waveform :=
  [(true, highTime cfg b), (false, p)]

/-- The pulses of the bits `v[n−1]` down to `v[0]` (R171). -/
def emitBits (cfg : Config) (v : Byte) (p : Nat) : Nat → Waveform
  | 0 => []
  | n + 1 => emitBit cfg (v.getLsbD n) p ++ emitBits cfg v p n

/-- `EmitSegment(v, n, p, s)` (R171). -/
def emitSegment (cfg : Config) (v : Byte) (n p s : Nat) : Waveform :=
  emitBits cfg v p n ++ [(false, s)]

/-- `EmitFrame(c)` (R172). -/
def emitFrame (cfg : Config) (c : Byte) : Waveform :=
  emitSegment cfg 0b1010#8 4 cfg.hdrBitPause cfg.hdrSegPause ++
  emitSegment cfg cfg.start0 8 cfg.bodyBitPause cfg.bodySegPause ++
  emitSegment cfg cfg.start1 8 cfg.bodyBitPause cfg.bodySegPause ++
  emitSegment cfg cfg.start2 8 cfg.bodyBitPause cfg.bodySegPause ++
  emitSegment cfg c 8 cfg.bodyBitPause cfg.bodySegPause ++
  emitSegment cfg (encodeByte cfg.k c) 8 cfg.bodyBitPause cfg.bodySegPause ++
  emitSegment cfg (invByte (encodeByte cfg.k c)) 8 cfg.bodyBitPause cfg.bodySegPause

/-- `Chunks(D)` with as many unfoldings as `fuel` allows; `D` are enough where `MAX_WAIT ≥ 1`. -/
def chunksFuel (maxWait : Nat) : Nat → Nat → List Nat
  | 0, d => [d]
  | fuel + 1, d => if maxWait < d then maxWait :: chunksFuel maxWait fuel (d - maxWait) else [d]

/-- `Chunks(D)` (R173). -/
def chunks (maxWait d : Nat) : List Nat :=
  chunksFuel maxWait d d

/-- `Gap(D)` (R173). -/
def gap (cfg : Config) (d : Nat) : Waveform :=
  (chunks cfg.maxWait d).map fun c => (false, c)

/-- `n + 1` frames with the idle between them (R174). -/
def repeatFrames (cfg : Config) (c : Byte) : Nat → Waveform
  | 0 => emitFrame cfg c
  | n + 1 => emitFrame cfg c ++ gap cfg cfg.msgPause ++ repeatFrames cfg c n

/-- `Transmit(c)`: `REPEAT` frames (R174). -/
def transmit (cfg : Config) (c : Byte) : Waveform :=
  repeatFrames cfg c (Config.repeats - 1)

/-- The waveform of `SEQ_START` (43_public_operations.md R226). -/
def startWave (cfg : Config) : Waveform :=
  transmit cfg 0x01#8 ++ gap cfg cfg.seqWait ++ transmit cfg 0x40#8 ++ gap cfg cfg.seqWait ++ transmit cfg 0x31#8

/-- The waveform of `SEQ_STOP` (43_public_operations.md R227). -/
def stopWave (cfg : Config) : Waveform :=
  transmit cfg 0x40#8 ++ gap cfg cfg.seqWait ++ transmit cfg 0x02#8

/-- The number of 1 bits among the low `n` bits of a byte (R171, R178). -/
def popLow (v : Byte) : Nat → Nat
  | 0 => 0
  | n + 1 => (v.getLsbD n).toNat + popLow v n

/-- `pop(v)` (R178). -/
def pop (v : Byte) : Nat :=
  popLow v 8

end Sys2Proof.Machine
end

