-- ==== Sys2Proof/Machine/Trace.lean ====
section
/-! DEFINITION. The states that consecutive ticks pass through, and the waveform that the pin shows in them
(42_transmitter.md R199). -/

namespace Sys2Proof.Machine

/-- The `n` states after `s`: `S_{t+1}` to `S_{t+n}` for `s = S_t`; `none` if a tick is refused. -/
def observe : Nat → State → Option (List State)
  | 0, _ => some []
  | n + 1, s =>
    match step s with
    | .next s' => (observe n s').map fun tr => s' :: tr
    | .fault _ => none
    | .refused _ => none

/-- What the pin shows in a list of states, as runs (R199). -/
def pinWave (tr : List State) : Waveform :=
  runLength (tr.map State.rfOut)

/-- The host does not assert `rst` in this tick or a later one. -/
def State.noReset (s : State) : Prop :=
  ∀ p ∈ s.host, p.rst = false

end Sys2Proof.Machine
end

