-- ==== Sys2Proof/Safety.lean ====
section
/-! DEFINITION. What a run of the encoder may be relied on to keep: the invariants of the reachable states (10_state.md
R43) under a legal configuration (00_scope.md R8). -/

namespace Sys2Proof.Machine

/-- The invariants of R43, clause by clause, and two more that make them inductive (`mgapRep`, `qgapStep`; DEDUCED,
log 20). -/
structure State.Inv (s : State) : Prop where
  pin       : s.rfOut = true ↔ s.st = .high
  timer     : s.st ≠ .idle → 1 ≤ s.tcnt.toNat ∧ s.tcnt.toNat ≤ s.cfg.maxWait
  segment   : s.seg.toNat ≤ 6
  repeats   : s.rep.toNat ≤ 9
  headerBit : s.seg = 0#3 → s.nbit.toNat ≤ 3
  seqNone   : s.seqid = .none → s.seqpc = 0#2
  seqStart  : s.seqid = .start → s.seqpc.toNat ≤ 2
  seqStop   : s.seqid = .stop → s.seqpc.toNat ≤ 1
  idleSeq   : s.st = .idle → s.seqid = .none
  qgapSeq   : s.st = .qgap → s.seqid ≠ .none
  rest      : 0 < s.rem.toNat → s.st = .mgap ∨ s.st = .qgap
  encoded   : s.st ≠ .idle → s.st ≠ .qgap → s.enc = encodeByte s.cfg.k s.cmd
  mgapRep   : s.st = .mgap → s.rep.toNat ≤ 8
  qgapStep  : s.st = .qgap → s.seqpc.toNat < s.seqid.last

/-- A safe state: its configuration is legal and the invariants hold. -/
structure State.Safe (s : State) : Prop where
  legal : s.cfg.legal
  inv   : s.Inv

end Sys2Proof.Machine
end

