-- ==== Sys2Proof/Certificates/Slice0/Obligations.lean ====
section
/-! DEFINITION. What is claimed of the encoder. Every statement about ticks holds for every legal configuration
(00_scope.md R8); none rests on a value of the calibration bytes or on the default durations. -/

namespace Sys2Proof.Statements

open Sys2Proof.Machine

/-- The state one tick on, with the inputs of the tick used up and nothing else changed. -/
def used (s : State) : State :=
  { s with host := s.host.tail }

/-- The first tick of the transmission of code `c`, as R182 gives it, for a step of a sequence (R193) or for none. -/
def firstTick (c : Byte) (id : SeqId) (pc : BitVec 2) (s : State) : State :=
  { s with
    st := .high, rfOut := true, cmd := c, enc := c + s.cfg.k - 1#8, rep := 0#4, seg := 0#3, sh := 0xA0#8, nbit := 3#3,
    tcnt := BitVec.ofNat 14 s.cfg.t1, seqid := id, seqpc := pc }

/-- A bit begins: the pin goes high for the time of bit 7 of the shift register value (R184). -/
def bitBegins (v : Byte) (s : State) : State :=
  { s with st := .high, rfOut := true, sh := v, tcnt := BitVec.ofNat 14 (if v.getLsbD 7 then s.cfg.t1 else s.cfg.t0) }

/-- A bounded wait of a long wait of `d` ticks is loaded (R190). -/
def waitLoaded (d : Nat) (s : State) : State :=
  if s.cfg.maxWait < d then
    { s with tcnt := BitVec.ofNat 14 s.cfg.maxWait, rem := BitVec.ofNat 20 (d - s.cfg.maxWait) }
  else { s with tcnt := BitVec.ofNat 14 d, rem := 0#20 }

/-- The operation is over (R191). -/
def ended (s : State) : State :=
  { s with st := .idle, seqid := .none, seqpc := 0#2 }

/-- A tick outside `IDLE` in which a phase ends: a legal configuration, no reset, `tcnt` at 1 (or 0, R185). -/
def PhaseEnds (s : State) (p : Phase) : Prop :=
  s.cfg.legal ∧ s.inputs.rst = false ∧ s.st = p ∧ s.tcnt ≤ 1#14

/-- A tick in which a request can be served: a legal configuration and `IDLE`. -/
def Ready (s : State) : Prop :=
  s.cfg.legal ∧ s.st = .idle

/-- A tick in which a row of the ROM can be selected (20_memory.md R72; log 7). -/
def Selectable (s : State) : Prop :=
  s.cfg.legal ∧ (s.st = .idle ∨ (s.st = .qgap ∧ s.tcnt ≤ 1#14 ∧ s.rem = 0#20))

/-- The requests that hit, with their codes (30_encoding.md R98; 43_public_operations.md R220 to R225). -/
def Hits (op : BitVec 4) (v c : Byte) : Prop :=
  (op = 0x0#4 ∧ c = 0x01#8) ∨ (op = 0x1#4 ∧ c = 0x02#8) ∨
  (op = 0x2#4 ∧ v.toNat ≤ 3 ∧ c = 0x40#8 + v) ∨
  (op = 0x3#4 ∧ 1 ≤ v.toNat ∧ v.toNat ≤ 5 ∧ c = 0x30#8 + v) ∨
  (op = 0x4#4 ∧ v.toNat ≤ 3 ∧ c = 0x50#8 + v) ∨
  (op = 0x5#4 ∧ v.toNat ≤ 1 ∧ c = 0x60#8 + v)

/-- The host presents this request in this tick, and does not reset in this or any later tick. -/
def Presents (s : State) (op : BitVec 4) (v : Byte) : Prop :=
  s.noReset ∧ s.inputs.reqValid = true ∧ s.inputs.reqOp = op ∧ s.inputs.reqVal = v

/-- The values loaded into `tcnt` from a state on, as long as something of the long wait is still owed (R190). -/
def waitLoads : Nat → State → List Nat
  | 0, s => [s.tcnt.toNat]
  | n + 1, s => if 0#20 < s.rem then s.tcnt.toNat :: waitLoads n (loadWait s.rem.toNat s) else [s.tcnt.toNat]

end Sys2Proof.Statements

open Sys2Proof Sys2Proof.Machine Sys2Proof.Statements

/-! Encoding. -/

/-- No bit of an instruction is dropped: decoding its word gives it back. -/
def Obligations.DecodeOfEncodeIsTheInstruction : Prop :=
  ∀ i : Instr, i.wellFormed = true → decode (encode i) = .ok i

/-- A word that decodes has one meaning: encoding the instruction gives the word back. -/
def Obligations.EncodeOfDecodeIsTheWord : Prop :=
  ∀ (w : CodeWord) (i : Instr), decode w = .ok i → encode i = w

/-- The same over bytes, in the model's byte order (DESIGN CHOICE, log 9). -/
def Obligations.BytesOfAnInstructionDecodeToIt : Prop :=
  ∀ i : Instr, i.wellFormed = true → decodeBytes (encodeBytes i) = .ok i

/-- No request word is illegal, and bit 11 alone says that it is reserved (30_encoding.md R98, R100). -/
def Obligations.EveryRequestWordIsARequest : Prop :=
  ∀ w : BitVec 12, ∃ i : Instr,
    decode (.req12 w) = .ok i ∧ i.wellFormed = true ∧ requestFor i = w ∧
    (w.getLsbD 11 = true ↔ ∃ op v, i = .reserved op v)

/-- A frame word is an instruction exactly if its header is 1010 and its command byte is a code of the ROM (R94, R99). -/
def Obligations.FrameWordsOutsideTheTableAreRejected : Prop :=
  ∀ w : BitVec 52,
    (w.extractLsb' 48 4 ≠ 0b1010#4 → decode (.frame52 w) = .error .badHeader) ∧
    (w.extractLsb' 48 4 = 0b1010#4 → w.extractLsb' 16 8 ∉ romRows.map RomRow.code →
      decode (.frame52 w) = .error .unknownCode) ∧
    (w.extractLsb' 48 4 = 0b1010#4 → w.extractLsb' 16 8 ∈ romRows.map RomRow.code →
      ∃ i, decode (.frame52 w) = .ok i)

/-- A few words of 95_test_vectors.md section 3 decode to what they stand for there. -/
def Obligations.WordsOfTheTestVectorsDecode : Prop :=
  decode (.req12 0x000#12) = .ok (.pwrOn 0x00#8) ∧
  decode (.req12 0x305#12) = .ok (.setFlame 5#8) ∧
  decode (.req12 0x40A#12) = .ok (.setAux1 10#8) ∧
  decode (.req12 0x700#12) = .ok (.seqStop 0x00#8) ∧
  decode (.req12 0x900#12) = .ok (.reserved 0x9#4 0x00#8) ∧
  decode (.frame52 0xA12345601FE01#52) = .ok (.powerOn ⟨0x12#8, 0x34#8, 0x56#8, 0xFE#8, 0x01#8⟩) ∧
  decode (.frame52 0xA1234563532CD#52) = .ok (.flame5 ⟨0x12#8, 0x34#8, 0x56#8, 0x32#8, 0xCD#8⟩) ∧
  decode (.frame52 0xA123456615EA1#52) = .ok (.aux21 ⟨0x12#8, 0x34#8, 0x56#8, 0x5E#8, 0xA1#8⟩)

/-- The fields of `FrameBits(cmd)` stand where R94 puts them. -/
def Obligations.FrameBitsHoldTheFields : Prop :=
  ∀ (cfg : Config) (c : Byte),
    (frameBits cfg c).extractLsb' 48 4 = 0b1010#4 ∧
    (frameBits cfg c).extractLsb' 40 8 = cfg.start0 ∧
    (frameBits cfg c).extractLsb' 32 8 = cfg.start1 ∧
    (frameBits cfg c).extractLsb' 24 8 = cfg.start2 ∧
    (frameBits cfg c).extractLsb' 16 8 = c ∧
    (frameBits cfg c).extractLsb' 8 8 = c + cfg.k - 1#8 ∧
    (frameBits cfg c).extractLsb' 0 8 = ~~~(c + cfg.k - 1#8)

/-- The frame that the encoder sends for each code is the word of that code's row (R94, R124 to R140). -/
def Obligations.FramesOfTheCodesAreTheRows : Prop :=
  ∀ cfg : Config,
    let frame := fun c => decode (.frame52 (frameBits cfg c))
    frame 0x01#8 = .ok (.powerOn (frameFieldsOf cfg 0x01#8)) ∧
    frame 0x02#8 = .ok (.powerOff (frameFieldsOf cfg 0x02#8)) ∧
    frame 0x31#8 = .ok (.flame1 (frameFieldsOf cfg 0x31#8)) ∧
    frame 0x32#8 = .ok (.flame2 (frameFieldsOf cfg 0x32#8)) ∧
    frame 0x33#8 = .ok (.flame3 (frameFieldsOf cfg 0x33#8)) ∧
    frame 0x34#8 = .ok (.flame4 (frameFieldsOf cfg 0x34#8)) ∧
    frame 0x35#8 = .ok (.flame5 (frameFieldsOf cfg 0x35#8)) ∧
    frame 0x40#8 = .ok (.fan0 (frameFieldsOf cfg 0x40#8)) ∧
    frame 0x41#8 = .ok (.fan1 (frameFieldsOf cfg 0x41#8)) ∧
    frame 0x42#8 = .ok (.fan2 (frameFieldsOf cfg 0x42#8)) ∧
    frame 0x43#8 = .ok (.fan3 (frameFieldsOf cfg 0x43#8)) ∧
    frame 0x50#8 = .ok (.aux10 (frameFieldsOf cfg 0x50#8)) ∧
    frame 0x51#8 = .ok (.aux11 (frameFieldsOf cfg 0x51#8)) ∧
    frame 0x52#8 = .ok (.aux12 (frameFieldsOf cfg 0x52#8)) ∧
    frame 0x53#8 = .ok (.aux13 (frameFieldsOf cfg 0x53#8)) ∧
    frame 0x60#8 = .ok (.aux20 (frameFieldsOf cfg 0x60#8)) ∧
    frame 0x61#8 = .ok (.aux21 (frameFieldsOf cfg 0x61#8))

/-! The ROM. -/

/-- The ROM is in canonical form, holds the seventeen codes at addresses 0 to 16 and nothing elsewhere (20_memory.md R60
to R62). -/
def Obligations.RomHoldsTheSeventeenCodes : Prop :=
  Memory.wf rom = true ∧
  ∀ a : Nat, memRead a =
    [0x01#8, 0x02#8, 0x31#8, 0x32#8, 0x33#8, 0x34#8, 0x35#8, 0x40#8, 0x41#8, 0x42#8, 0x43#8,
     0x50#8, 0x51#8, 0x52#8, 0x53#8, 0x60#8, 0x61#8][a]?

/-- A code identifies its row, a key identifies its row, and no code is 0x00 (40_command_table.md R120, R142). -/
def Obligations.CodesAndKeysIdentifyRows : Prop :=
  (romRows.map RomRow.code).Nodup ∧ (romRows.map RomRow.key).Nodup ∧ 0x00#8 ∉ romRows.map RomRow.code

/-- The lookup of a request is the lookup of its name, and is the row whose tag it matches (R123). -/
def Obligations.RomLookupIsTheLookupOfTheKey : Prop :=
  ∀ (op : BitVec 4) (v : Byte),
    romLookup op v = (keyOf op v).bind resolve ∧
    (6 ≤ op.toNat → romLookup op v = none) ∧
    romLookup op v = romMatch op v

/-- Which requests hit and with which code; every other one misses (30_encoding.md R98; R143). -/
def Obligations.RomLookupHitsExactlyTheRanges : Prop :=
  ∀ (op : BitVec 4) (v c : Byte), romLookup op v = some c ↔ Hits op v c

/-- A level outside its family's range, negative ones included, resolves to nothing; one inside, to its code (R121,
R143). -/
def Obligations.LevelsOutsideTheRangeResolveToNothing : Prop :=
  ∀ v : Int,
    resolveWithValue "Fan" v = (if 0 ≤ v ∧ v ≤ 3 then some (0x40#8 + BitVec.ofInt 8 v) else none) ∧
    resolveWithValue "Flame" v = (if 1 ≤ v ∧ v ≤ 5 then some (0x30#8 + BitVec.ofInt 8 v) else none) ∧
    resolveWithValue "AUX1" v = (if 0 ≤ v ∧ v ≤ 3 then some (0x50#8 + BitVec.ofInt 8 v) else none) ∧
    resolveWithValue "AUX2" v = (if 0 ≤ v ∧ v ≤ 1 then some (0x60#8 + BitVec.ofInt 8 v) else none)

/-! The frame encoder. -/

/-- `Encode` over the integers, and without the subtraction (41_frame_encoder.md R150). -/
def Obligations.EncodeAddsKLessOne : Prop :=
  ∀ k c : Byte,
    ((encodeByte k c).toNat : Int) = ((c.toNat : Int) + k.toNat - 1) % 256 ∧
    (encodeByte k c).toNat = (c.toNat + k.toNat + 255) % 256

/-- `Encode` is a bijection with inverse `Decode`, and one pair gives `K` (R153). -/
def Obligations.EncodeIsABijection : Prop :=
  ∀ k c e : Byte,
    decodeByte k (encodeByte k c) = c ∧ encodeByte k (decodeByte k e) = e ∧
    (encodeByte k c = e → k = e - c + 1#8)

/-- The last segment of a frame is the complement of the one before it, as the frame lists them and as they are loaded:
they add up to 255 and hold eight 1 bits together (R154); and so are any byte and its `Inv` (R151). -/
def Obligations.LastSegmentsAreComplements : Prop :=
  (∀ (cfg : Config) (c : Byte), ∃ x y : Byte,
    (frameSegments cfg c)[5]? = some (x, 8) ∧ (frameSegments cfg c)[6]? = some (y, 8) ∧ (frameSegments cfg c)[7]? = none ∧
    y = ~~~x ∧ x.toNat + y.toNat = 255 ∧ x ^^^ y = 0xFF#8 ∧ pop x + pop y = 8) ∧
  (∀ (cfg : Config) (c e : Byte), segVal cfg 6#3 c e = ~~~(segVal cfg 5#3 c e)) ∧
  ∀ e : Byte,
    (invByte e).toNat = 255 - e.toNat ∧ e ^^^ invByte e = 0xFF#8 ∧ invByte (invByte e) = e ∧ pop e + pop (invByte e) = 8

/-- Seven segments of 4, 8, 8, 8, 8, 8, 8 bits, 52 in all, whatever the command (R155); segment by segment they are the
frame word read from its top bit (20_memory.md R66). -/
def Obligations.FrameHasSevenSegments : Prop :=
  ∀ (cfg : Config) (c d : Byte),
    (frameSegments cfg c).map Prod.snd = [4, 8, 8, 8, 8, 8, 8] ∧
    ((frameSegments cfg c).map Prod.snd).sum = 52 ∧
    (frameBits cfg c).extractLsb' 24 28 = (frameBits cfg d).extractLsb' 24 28 ∧
    ((frameSegments cfg c).flatMap fun p => (List.range p.2).map fun j => p.1.getLsbD (p.2 - 1 - j)) =
      (List.range 52).map fun j => (frameBits cfg c).getLsbD (51 - j)

/-! The waveform functions. -/

/-- A segment: its bits from the most significant, then the segment pause; and how long it lasts (42_transmitter.md
R171). -/
def Obligations.SegmentIsItsBitsAndItsPause : Prop :=
  ∀ (cfg : Config) (v : Byte) (n p s : Nat), n ≤ 8 →
    emitSegment cfg v n p s =
      ((List.range n).flatMap fun j =>
        [(true, if v.getLsbD (n - 1 - j) then cfg.t1 else cfg.t0), (false, p)]) ++ [(false, s)] ∧
    dur (emitSegment cfg v n p s) = popLow v n * cfg.t1 + (n - popLow v n) * cfg.t0 + n * p + s

/-- Pulses and duration of a frame; neither depends on `K` (R178). -/
def Obligations.FramePulsesAndDuration : Prop :=
  ∀ (cfg : Config) (c : Byte), cfg.legal →
    let n := pop cfg.start0 + pop cfg.start1 + pop cfg.start2 + pop c
    ((emitFrame cfg c).filter fun r => r.1).length = 52 ∧
    ((emitFrame cfg c).filter fun r => r.1 && r.2 == cfg.t1).length = n + 10 ∧
    dur (emitFrame cfg c) = (n + 10) * cfg.t1 + (42 - n) * cfg.t0 +
      4 * cfg.hdrBitPause + cfg.hdrSegPause + 48 * cfg.bodyBitPause + 6 * cfg.bodySegPause

/-- The pulses of a frame are the bits of the frame word from bit 51 down, long for 1 and short for 0 (20_memory.md R65,
R66; 30_encoding.md R94, R96). -/
def Obligations.PulsesAreTheFrameBits : Prop :=
  ∀ (cfg : Config) (c : Byte),
    ((emitFrame cfg c).filter fun r => r.1).map Prod.snd =
      (List.range 52).map fun j => if (frameBits cfg c).getLsbD (51 - j) then cfg.t1 else cfg.t0

/-- The chunks of a long wait: each between 1 and `MAX_WAIT`, all but the last equal to it, in all the wait, as many as
it takes; on the pin they are one run (R173). -/
def Obligations.ChunksSumToTheWait : Prop :=
  ∀ (cfg : Config) (d : Nat), 1 ≤ cfg.maxWait → 1 ≤ d →
    (chunks cfg.maxWait d).sum = d ∧
    (∀ x ∈ chunks cfg.maxWait d, 1 ≤ x ∧ x ≤ cfg.maxWait) ∧
    (∀ x ∈ (chunks cfg.maxWait d).dropLast, x = cfg.maxWait) ∧
    (chunks cfg.maxWait d).length = (d + cfg.maxWait - 1) / cfg.maxWait ∧
    norm (gap cfg d) = [(false, d)]

/-- A transmission is ten frames with the idle after each of the first nine; and how long it lasts (R174, R175). -/
def Obligations.TransmissionIsTenFrames : Prop :=
  ∀ (cfg : Config) (c : Byte), cfg.legal →
    transmit cfg c = (List.replicate 9 (emitFrame cfg c ++ gap cfg cfg.msgPause)).flatten ++ emitFrame cfg c ∧
    dur (transmit cfg c) = 10 * dur (emitFrame cfg c) + 9 * cfg.msgPause

/-! The instructions. -/

/-- `PWR_ON` and `PWR_OFF` start the transmission of their code, whatever `req_val` is (R181, R182). -/
def Obligations.PowerRequestsStartTheirCode : Prop :=
  ∀ (s : State) (v : Byte), Ready s →
    exec (.pwrOn v) s = .next (firstTick 0x01#8 .none 0#2 s) ∧
    exec (.pwrOff v) s = .next (firstTick 0x02#8 .none 0#2 s)

/-- The four requests with a level: inside the range the code's transmission starts, outside it nothing changes (R181,
R182, R229). -/
def Obligations.LevelRequestsStartTheirCodeOrNothing : Prop :=
  ∀ (s : State) (n : Byte), Ready s →
    exec (.setFan n) s =
      .next (if n.toNat ≤ 3 then firstTick (0x40#8 + n) .none 0#2 s else s) ∧
    exec (.setFlame n) s =
      .next (if 1 ≤ n.toNat ∧ n.toNat ≤ 5 then firstTick (0x30#8 + n) .none 0#2 s else s) ∧
    exec (.setAux1 n) s =
      .next (if n.toNat ≤ 3 then firstTick (0x50#8 + n) .none 0#2 s else s) ∧
    exec (.setAux2 n) s =
      .next (if n.toNat ≤ 1 then firstTick (0x60#8 + n) .none 0#2 s else s)

/-- The two sequences start their step 0 (R181, R193). -/
def Obligations.SequenceRequestsStartStepZero : Prop :=
  ∀ (s : State) (v : Byte), Ready s →
    exec (.seqStart v) s = .next (firstTick 0x01#8 .start 0#2 s) ∧
    exec (.seqStop v) s = .next (firstTick 0x40#8 .stop 0#2 s)

/-- A reserved operation does nothing; the tick that accepts one changes no register, and the encoder is ready again
(R228). -/
def Obligations.ReservedRequestsChangeNothing : Prop :=
  (∀ (s : State) (op : BitVec 4) (v : Byte), Ready s → exec (.reserved op v) s = .next s) ∧
  (∀ s : State, Ready s → s.inputs.rst = false → s.inputs.reqValid = true → 8 ≤ s.inputs.reqOp.toNat →
    s.accepts = true ∧ step s = .next (used s) ∧ (used s).busy = false ∧
      ((used s).inputs.rst = false → (used s).reqReady = true))

/-- The power and flame rows: selected in a tick in which a command can start, each starts its code and leaves the
sequence registers (R124 to R130, R182; what selects a row is DESIGN CHOICE, log 7). -/
def Obligations.PowerAndFlameRowsStartTheirCode : Prop :=
  ∀ (s : State) (f : FrameFields), Selectable s →
    exec (.powerOn f) s = .next (firstTick 0x01#8 s.seqid s.seqpc s) ∧
    exec (.powerOff f) s = .next (firstTick 0x02#8 s.seqid s.seqpc s) ∧
    exec (.flame1 f) s = .next (firstTick 0x31#8 s.seqid s.seqpc s) ∧
    exec (.flame2 f) s = .next (firstTick 0x32#8 s.seqid s.seqpc s) ∧
    exec (.flame3 f) s = .next (firstTick 0x33#8 s.seqid s.seqpc s) ∧
    exec (.flame4 f) s = .next (firstTick 0x34#8 s.seqid s.seqpc s) ∧
    exec (.flame5 f) s = .next (firstTick 0x35#8 s.seqid s.seqpc s)

/-- The fan and AUX rows, likewise (R131 to R140, R182; log 7). -/
def Obligations.FanAndAuxRowsStartTheirCode : Prop :=
  ∀ (s : State) (f : FrameFields), Selectable s →
    exec (.fan0 f) s = .next (firstTick 0x40#8 s.seqid s.seqpc s) ∧
    exec (.fan1 f) s = .next (firstTick 0x41#8 s.seqid s.seqpc s) ∧
    exec (.fan2 f) s = .next (firstTick 0x42#8 s.seqid s.seqpc s) ∧
    exec (.fan3 f) s = .next (firstTick 0x43#8 s.seqid s.seqpc s) ∧
    exec (.aux10 f) s = .next (firstTick 0x50#8 s.seqid s.seqpc s) ∧
    exec (.aux11 f) s = .next (firstTick 0x51#8 s.seqid s.seqpc s) ∧
    exec (.aux12 f) s = .next (firstTick 0x52#8 s.seqid s.seqpc s) ∧
    exec (.aux13 f) s = .next (firstTick 0x53#8 s.seqid s.seqpc s) ∧
    exec (.aux20 f) s = .next (firstTick 0x60#8 s.seqid s.seqpc s) ∧
    exec (.aux21 f) s = .next (firstTick 0x61#8 s.seqid s.seqpc s)

/-- A row of the ROM is reached by the request that the table gives for it (R124 to R140). -/
def Obligations.RowsAreReachedByTheirRequests : Prop :=
  ∀ (s : State) (i : Instr) (w : BitVec 52), Ready s → encode i = .frame52 w →
    exec (decodeReq (requestFor i)) s = exec i { s with seqid := .none, seqpc := 0#2 }

/-- While an operation runs, no instruction alters it: no request outside `IDLE`, and no row but in the last tick of the
wait of a sequence (R177; 10_state.md R37). -/
def Obligations.NoInstructionAltersARunningOperation : Prop :=
  ∀ (s : State) (i : Instr), s.cfg.legal → s.st ≠ .idle →
    (s.st = .qgap → 1#14 < s.tcnt ∨ s.rem ≠ 0#20 ∨ ∃ w, encode i = .req12 w) →
    exec i s = .next s

/-- Under a configuration that breaks a constraint of 00_scope.md R8 nothing has a meaning. R8 refuses the configuration;
that every tick, one with `rst = 1` among them, and every instruction is refused is the model's (DEDUCED, log 5). -/
def Obligations.IllegalConfigurationsAreRefused : Prop :=
  ∀ (s : State) (i : Instr),
    (s.cfg.t1 ≤ s.cfg.t0 ∨
     (s.cfg.t1 = 0 ∨ s.cfg.t0 = 0 ∨ s.cfg.hdrBitPause = 0 ∨ s.cfg.hdrSegPause = 0 ∨ s.cfg.bodyBitPause = 0 ∨
       s.cfg.bodySegPause = 0 ∨ s.cfg.msgPause = 0 ∨ s.cfg.maxWait = 0 ∨ s.cfg.seqWait = 0) ∨
     (s.cfg.maxWait < s.cfg.t1 ∨ s.cfg.maxWait < s.cfg.t0 ∨ s.cfg.maxWait < s.cfg.hdrBitPause ∨
       s.cfg.maxWait < s.cfg.hdrSegPause ∨ s.cfg.maxWait < s.cfg.bodyBitPause ∨
       s.cfg.maxWait < s.cfg.bodySegPause) ∨
     16383 < s.cfg.maxWait ∨ 2 ^ 20 ≤ s.cfg.msgPause ∨ 2 ^ 20 ≤ s.cfg.seqWait) →
    step s = .refused .illegalConfiguration ∧ exec i s = .refused .illegalConfiguration

/-- Under a configuration that keeps every constraint of R8 a tick always has a next state, and so has every instruction:
there is no fault (R180; 60_exceptions.md R240). -/
def Obligations.EveryTickHasANextState : Prop :=
  ∀ (s : State) (i : Instr),
    s.cfg.t0 < s.cfg.t1 → 1 ≤ s.cfg.t0 → 1 ≤ s.cfg.hdrBitPause → 1 ≤ s.cfg.hdrSegPause → 1 ≤ s.cfg.bodyBitPause →
    1 ≤ s.cfg.bodySegPause → 1 ≤ s.cfg.msgPause → 1 ≤ s.cfg.maxWait → 1 ≤ s.cfg.seqWait →
    s.cfg.t1 ≤ s.cfg.maxWait → s.cfg.hdrBitPause ≤ s.cfg.maxWait → s.cfg.hdrSegPause ≤ s.cfg.maxWait →
    s.cfg.bodyBitPause ≤ s.cfg.maxWait → s.cfg.bodySegPause ≤ s.cfg.maxWait → s.cfg.maxWait ≤ 16383 →
    s.cfg.msgPause < 2 ^ 20 → s.cfg.seqWait < 2 ^ 20 →
    (∃ t, step s = .next t) ∧ (∃ t, exec i s = .next t)

/-! One tick. -/

/-- The request on the ports is decoded and run, and the inputs of the tick are used up (R180, R181). -/
def Obligations.StepRunsTheDecodedRequest : Prop :=
  ∀ (s : State) (i : Instr), Ready s → s.inputs.rst = false → s.inputs.reqValid = true →
    decode (.req12 (s.inputs.reqOp ++ s.inputs.reqVal)) = .ok i →
    step s = exec i (used s)

/-- A table word placed by `withFetchWord` is what the next step runs: a request itself, a command by the request that
reaches its row (log 10). -/
def Obligations.StepRunsThePlacedWord : Prop :=
  ∀ (s : State) (i : Instr), s.cfg.legal → i.wellFormed = true →
    let ready := ended { used s with rfOut := false }
    (∀ w, encode i = .req12 w → step (s.withFetchWord 16 w.toNat) = exec i ready) ∧
    (∀ w, encode i = .frame52 w → step (s.withFetchWord 56 w.toNat) = exec i ready)

/-- A tick with `rst = 1` writes the reset state to every register, whatever the state was, and touches nothing else; no
request is accepted in it, and from the first tick with `rst = 0` the outputs are those of the reset state
(70_reset_and_hazards.md R270, R272, R273; 10_state.md R42). -/
def Obligations.ResetTickWritesTheResetState : Prop :=
  ∀ s : State, s.cfg.legal → s.inputs.rst = true →
    s.reqReady = false ∧ s.accepts = false ∧
    ∃ t, step s = .next t ∧
      t = { st := .idle, rfOut := false, cmd := 0x00#8, enc := 0x00#8, seg := 0#3, sh := 0x00#8, nbit := 0#3,
            rep := 0#4, tcnt := 0#14, rem := 0#20, seqid := .none, seqpc := 0#2, cfg := s.cfg, host := s.host.tail } ∧
      (t.inputs.rst = false → t.outputs = ⟨true, false, false, false⟩)

/-- `State.reset` is the reset state of 10_state.md R42, with a host that presents nothing (log 4). -/
def Obligations.ResetStateIsTheSpecs : Prop :=
  State.reset.st = .idle ∧ State.reset.rfOut = false ∧ State.reset.cmd = 0x00#8 ∧ State.reset.enc = 0x00#8 ∧
  State.reset.seg = 0#3 ∧ State.reset.sh = 0x00#8 ∧ State.reset.nbit = 0#3 ∧ State.reset.rep = 0#4 ∧
  State.reset.tcnt = 0#14 ∧ State.reset.rem = 0#20 ∧ State.reset.seqid = .none ∧ State.reset.seqpc = 0#2 ∧
  State.reset.outputs = ⟨true, false, false, false⟩

/-- A request that is not accepted leaves no trace: the tick is as if none had been presented, whatever stands on the
other request inputs (10_state.md R21, R37; 70_reset_and_hazards.md R281). In `IDLE` a tick without a request changes
nothing (42_transmitter.md R180). -/
def Obligations.UnacceptedRequestsLeaveNoTrace : Prop :=
  (∀ (s : State) (op : BitVec 4) (v : Byte), s.accepts = false →
    step s = step { s with host := ⟨s.inputs.rst, false, op, v⟩ :: s.host.tail }) ∧
  ∀ s : State, Ready s → s.inputs.rst = false → s.inputs.reqValid = false → step s = .next (used s)

/-- An accepted request that misses leaves every register as it was and the encoder ready (R229; 60_exceptions.md R241,
R245). -/
def Obligations.MissesLeaveNoTrace : Prop :=
  ∀ s : State, s.cfg.legal → s.accepts = true →
    (∀ c, ¬ Hits s.inputs.reqOp s.inputs.reqVal c) → s.inputs.reqOp ≠ 0x6#4 → s.inputs.reqOp ≠ 0x7#4 →
    step s = .next (used s) ∧ (used s).busy = false ∧ (used s).rfOut = s.rfOut

/-- The timer: a phase entered with `tcnt = N` is still there after each of `N − 1` ticks, in which only `tcnt` falls
(R185). -/
def Obligations.TimerCountsThePhase : Prop :=
  ∀ (s : State) (n : Nat), s.cfg.legal → s.noReset → s.st ≠ .idle → n < s.tcnt.toNat →
    observe n s = some ((List.range n).map fun j =>
      { s with tcnt := s.tcnt - BitVec.ofNat 14 (j + 1), host := s.host.drop (j + 1) })

/-- The end of the high half of a bit (R186). -/
def Obligations.HighEndsInTheBitPause : Prop :=
  ∀ s : State, PhaseEnds s .high →
    step s = .next { used s with
      st := .low, rfOut := false
      tcnt := BitVec.ofNat 14 (if s.seg = 0#3 then s.cfg.hdrBitPause else s.cfg.bodyBitPause) }

/-- The end of the bit pause: the next bit, or after the last one the segment pause (R187). -/
def Obligations.BitPauseEndsInTheNextBitOrTheSegmentPause : Prop :=
  ∀ s : State, PhaseEnds s .low →
    (0 < s.nbit.toNat → step s = .next (bitBegins (s.sh <<< 1) { used s with nbit := s.nbit - 1#3 })) ∧
    (s.nbit = 0#3 → step s = .next { used s with
      st := .sgap
      tcnt := BitVec.ofNat 14 (if s.seg = 0#3 then s.cfg.hdrSegPause else s.cfg.bodySegPause) })

/-- The end of the segment pause: the next segment with its value and its first bit; after the last segment the idle
between frames; after the tenth frame the wait of a sequence or the end (R183, R188, R191). -/
def Obligations.SegmentPauseEndsInWhatFollows : Prop :=
  ∀ s : State, PhaseEnds s .sgap →
    (∀ i v, (i, v) ∈ [(0, s.cfg.start0), (1, s.cfg.start1), (2, s.cfg.start2), (3, s.cmd), (4, s.enc), (5, ~~~s.enc)] →
      s.seg = BitVec.ofNat 3 i →
      step s = .next (bitBegins v { used s with seg := BitVec.ofNat 3 (i + 1), nbit := 7#3 })) ∧
    (6 ≤ s.seg.toNat → s.rep.toNat < 9 →
      step s = .next (waitLoaded s.cfg.msgPause { used s with st := .mgap })) ∧
    (6 ≤ s.seg.toNat → 9 ≤ s.rep.toNat →
      ((s.seqid = .start ∧ s.seqpc.toNat < 2) ∨ (s.seqid = .stop ∧ s.seqpc.toNat < 1) →
        step s = .next (waitLoaded s.cfg.seqWait { used s with st := .qgap })) ∧
      (s.seqid = .none ∨ (s.seqid = .start ∧ 2 ≤ s.seqpc.toNat) ∨ (s.seqid = .stop ∧ 1 ≤ s.seqpc.toNat) →
        step s = .next (ended (used s))))

/-- The end of a chunk of the idle between frames: the next chunk, or the next frame from its header (R189). -/
def Obligations.MessageIdleEndsInTheNextFrame : Prop :=
  ∀ s : State, PhaseEnds s .mgap →
    (0 < s.rem.toNat → step s = .next (waitLoaded s.rem.toNat (used s))) ∧
    (s.rem = 0#20 → step s = .next (bitBegins 0xA0#8 { used s with rep := s.rep + 1#4, seg := 0#3, nbit := 3#3 }))

/-- The end of a chunk of the wait of a sequence: the next chunk, or the next step with its code (R192, R193). -/
def Obligations.SequenceWaitEndsInTheNextStep : Prop :=
  ∀ s : State, PhaseEnds s .qgap →
    (0 < s.rem.toNat → step s = .next (waitLoaded s.rem.toNat (used s))) ∧
    (s.rem = 0#20 →
      (s.seqid = .start → s.seqpc = 0#2 → step s = .next (firstTick 0x40#8 .start 1#2 (used s))) ∧
      (s.seqid = .start → s.seqpc = 1#2 → step s = .next (firstTick 0x31#8 .start 2#2 (used s))) ∧
      (s.seqid = .stop → s.seqpc = 0#2 → step s = .next (firstTick 0x02#8 .stop 1#2 (used s))))

/-- The values that a long wait loads into `tcnt` are its chunks (R190). -/
def Obligations.LongWaitsLoadTheirChunks : Prop :=
  ∀ (s : State) (d : Nat), s.cfg.legal → 1 ≤ d → d < 2 ^ 20 →
    waitLoads d (loadWait d s) = chunks s.cfg.maxWait d

/-- A long wait of `D` ticks lasts `D` ticks in its phase with the pin as it was, and then its last chunk ends (R190). -/
def Obligations.LongWaitsLastTheirTicks : Prop :=
  ∀ (s : State) (d : Nat), s.cfg.legal → s.noReset → s.st = .mgap ∨ s.st = .qgap → 1 ≤ d → d < 2 ^ 20 →
    ∃ tr, observe (d - 1) (loadWait d s) = some tr ∧
      (∀ x ∈ tr, x.st = s.st ∧ x.rfOut = s.rfOut) ∧
      (loadWait d s :: tr).getLast? = some { s with tcnt := 1#14, rem := 0#20, host := s.host.drop (d - 1) }

/-! The whole machine. -/

/-- The invariants of 10_state.md R43 hold in the reset state, whose configuration is legal. -/
def Obligations.ResetIsSafe : Prop :=
  State.reset.Safe

/-- Every tick and every instruction keeps the invariants of R43 (two clauses added, log 20). -/
def Obligations.EveryTickKeepsTheInvariants : Prop :=
  ∀ s t : State, s.Inv → (step s = .next t ∨ ∃ i, exec i s = .next t) → t.Inv

/-- No tick and no instruction changes the configuration; a tick uses up one entry of the host's list, an instruction
none (10_state.md R39; 70_reset_and_hazards.md R272, R276). -/
def Obligations.TheConfigurationNeverChanges : Prop :=
  ∀ s t : State,
    (step s = .next t → t.cfg = s.cfg ∧ t.host = s.host.tail) ∧
    (∀ i, exec i s = .next t → t.cfg = s.cfg ∧ t.host = s.host)

/-- What each phase shows at the outputs (R194; 10_state.md R36 to R38). -/
def Obligations.PhasesShowTheirOutputs : Prop :=
  ∀ s : State, s.Inv → s.inputs.rst = false →
    (s.st = .idle → s.outputs = ⟨true, false, false, false⟩) ∧
    (s.st = .high → s.outputs = ⟨false, true, true, true⟩) ∧
    (s.st = .low ∨ s.st = .sgap ∨ s.st = .mgap → s.outputs = ⟨false, true, true, false⟩) ∧
    (s.st = .qgap → s.outputs = ⟨false, true, false, false⟩)

/-- From `IDLE` the outputs depend on the configuration and the host alone: what earlier operations left in the other
registers never shows (10_state.md R41; 43_public_operations.md R229). -/
def Obligations.DeadRegistersNeverShow : Prop :=
  ∀ (n : Nat) (s t : State), s.st = .idle → t.st = .idle → s.rfOut = t.rfOut → s.cfg = t.cfg → s.host = t.host →
    (observe n s).map (List.map State.outputs) = (observe n t).map (List.map State.outputs)

/-- The waveform of a single-command request that hits: the pin shows `Transmit(c)`, tick for tick, `busy` and
`irq_inhibit` are 1 and `req_ready` is 0 for exactly its ticks, and then the encoder is in `IDLE` (R199; R220 to R225). -/
def Obligations.SingleCommandShowsItsTransmission : Prop :=
  ∀ (s : State) (op : BitVec 4) (v c : Byte), Ready s → Presents s op v → Hits op v c →
    ∃ tr u, observe (dur (transmit s.cfg c) + 1) s = some (tr ++ [u]) ∧
      tr.length = dur (transmit s.cfg c) ∧
      pinWave tr = norm (transmit s.cfg c) ∧
      (∀ x ∈ tr, x.busy = true ∧ x.irqInhibit = true ∧ x.reqReady = false) ∧
      u.st = .idle ∧ u.rfOut = false

/-- The waveform of `SEQ_START`: three transmissions and two waits; `busy` throughout, `irq_inhibit` in the transmissions
only (R199, R226). -/
def Obligations.StartSequenceShowsItsWaveform : Prop :=
  ∀ (s : State) (v : Byte), Ready s → Presents s 0x6#4 v →
    ∃ t1 q1 t2 q2 t3 u,
      observe (dur (startWave s.cfg) + 1) s = some (t1 ++ q1 ++ t2 ++ q2 ++ t3 ++ [u]) ∧
      t1.length = dur (transmit s.cfg 0x01#8) ∧ q1.length = s.cfg.seqWait ∧
      t2.length = dur (transmit s.cfg 0x40#8) ∧ q2.length = s.cfg.seqWait ∧
      t3.length = dur (transmit s.cfg 0x31#8) ∧
      pinWave (t1 ++ q1 ++ t2 ++ q2 ++ t3) = norm (startWave s.cfg) ∧
      (∀ x ∈ t1 ++ q1 ++ t2 ++ q2 ++ t3, x.busy = true ∧ x.reqReady = false ∧ x.seqid = .start) ∧
      (∀ x ∈ t1 ++ t2 ++ t3, x.irqInhibit = true) ∧ (∀ x ∈ q1 ++ q2, x.irqInhibit = false) ∧
      (∀ x ∈ t1, x.seqpc = 0#2) ∧ (∀ x ∈ t2, x.seqpc = 1#2) ∧ (∀ x ∈ t3, x.seqpc = 2#2) ∧
      u.st = .idle ∧ u.rfOut = false

/-- The waveform of `SEQ_STOP`: two transmissions and one wait (R199, R227). -/
def Obligations.StopSequenceShowsItsWaveform : Prop :=
  ∀ (s : State) (v : Byte), Ready s → Presents s 0x7#4 v →
    ∃ t1 q1 t2 u,
      observe (dur (stopWave s.cfg) + 1) s = some (t1 ++ q1 ++ t2 ++ [u]) ∧
      t1.length = dur (transmit s.cfg 0x40#8) ∧ q1.length = s.cfg.seqWait ∧
      t2.length = dur (transmit s.cfg 0x02#8) ∧
      pinWave (t1 ++ q1 ++ t2) = norm (stopWave s.cfg) ∧
      (∀ x ∈ t1 ++ q1 ++ t2, x.busy = true ∧ x.reqReady = false ∧ x.seqid = .stop) ∧
      (∀ x ∈ t1 ++ t2, x.irqInhibit = true) ∧ (∀ x ∈ q1, x.irqInhibit = false) ∧
      (∀ x ∈ t1, x.seqpc = 0#2) ∧ (∀ x ∈ t2, x.seqpc = 1#2) ∧
      u.st = .idle ∧ u.rfOut = false
end

