-- ==== Sys2Proof/Laws/Decode.lean ====
section
/-! SUPPORT. The fields of a request word and of a frame word, read back. -/

namespace Sys2Proof

/-- Appending is place value. -/
theorem append_toNat {m n : Nat} (x : BitVec m) (y : BitVec n) : (x ++ y).toNat = x.toNat * 2 ^ n + y.toNat := by
  rw [BitVec.toNat_append, Nat.shiftLeft_eq, ← Nat.shiftLeft_eq, Nat.shiftLeft_add_eq_or_of_lt y.isLt, Nat.shiftLeft_eq]

/-- A request word as a number (30_encoding.md R90). -/
theorem reqWord_toNat (op : BitVec 4) (v : Byte) : (reqWord op v).toNat = op.toNat * 256 + v.toNat :=
  append_toNat op v

@[simp] theorem reqWord_op (op : BitVec 4) (v : Byte) : (reqWord op v).extractLsb' 8 4 = op := by
  apply BitVec.eq_of_toNat_eq
  rw [BitVec.extractLsb'_toNat, reqWord_toNat, Nat.shiftRight_eq_div_pow]
  have := op.isLt
  have := v.isLt
  omega

@[simp] theorem reqWord_val (op : BitVec 4) (v : Byte) : (reqWord op v).extractLsb' 0 8 = v := by
  apply BitVec.eq_of_toNat_eq
  rw [BitVec.extractLsb'_toNat, reqWord_toNat, Nat.shiftRight_eq_div_pow]
  have := v.isLt
  omega

/-- A request word is its two fields. -/
@[simp] theorem reqWord_fields (w : BitVec 12) : reqWord (w.extractLsb' 8 4) (w.extractLsb' 0 8) = w := by
  apply BitVec.eq_of_toNat_eq
  simp only [reqWord_toNat, BitVec.extractLsb'_toNat, Nat.shiftRight_eq_div_pow]
  have := w.isLt
  omega

/-! What each operation number decodes to (30_encoding.md R90, R98). -/

@[simp] theorem decodeReq_pwrOn (v : Byte) : decodeReq (reqWord 0x0#4 v) = .pwrOn v := by
  simp only [decodeReq, reqWord_op, reqWord_val]
@[simp] theorem decodeReq_pwrOff (v : Byte) : decodeReq (reqWord 0x1#4 v) = .pwrOff v := by
  simp only [decodeReq, reqWord_op, reqWord_val]
@[simp] theorem decodeReq_setFan (v : Byte) : decodeReq (reqWord 0x2#4 v) = .setFan v := by
  simp only [decodeReq, reqWord_op, reqWord_val]
@[simp] theorem decodeReq_setFlame (v : Byte) : decodeReq (reqWord 0x3#4 v) = .setFlame v := by
  simp only [decodeReq, reqWord_op, reqWord_val]
@[simp] theorem decodeReq_setAux1 (v : Byte) : decodeReq (reqWord 0x4#4 v) = .setAux1 v := by
  simp only [decodeReq, reqWord_op, reqWord_val]
@[simp] theorem decodeReq_setAux2 (v : Byte) : decodeReq (reqWord 0x5#4 v) = .setAux2 v := by
  simp only [decodeReq, reqWord_op, reqWord_val]
@[simp] theorem decodeReq_seqStart (v : Byte) : decodeReq (reqWord 0x6#4 v) = .seqStart v := by
  simp only [decodeReq, reqWord_op, reqWord_val]
@[simp] theorem decodeReq_seqStop (v : Byte) : decodeReq (reqWord 0x7#4 v) = .seqStop v := by
  simp only [decodeReq, reqWord_op, reqWord_val]

theorem decodeReq_reserved (op : BitVec 4) (v : Byte) (h : 8 ≤ op.toNat) : decodeReq (reqWord op v) = .reserved op v := by
  simp only [decodeReq, reqWord_op, reqWord_val]
  split <;> first | exact absurd h (by decide) | rfl

/-- A frame word as a number (30_encoding.md R94). -/
theorem frameWord_toNat (code : Byte) (f : FrameFields) :
    (frameWord code f).toNat = 10 * 2 ^ 48 + f.start0.toNat * 2 ^ 40 + f.start1.toNat * 2 ^ 32 +
      f.start2.toNat * 2 ^ 24 + code.toNat * 2 ^ 16 + f.enc.toNat * 2 ^ 8 + f.inv.toNat := by
  simp only [frameWord, append_toNat, show (0b1010#4 : BitVec 4).toNat = 10 from rfl]
  omega

/-- The fields of a frame word. -/
theorem frameWord_fields (code : Byte) (f : FrameFields) :
    (frameWord code f).extractLsb' 48 4 = 0b1010#4 ∧ (frameWord code f).extractLsb' 40 8 = f.start0 ∧
    (frameWord code f).extractLsb' 32 8 = f.start1 ∧ (frameWord code f).extractLsb' 24 8 = f.start2 ∧
    (frameWord code f).extractLsb' 16 8 = code ∧ (frameWord code f).extractLsb' 8 8 = f.enc ∧
    (frameWord code f).extractLsb' 0 8 = f.inv := by
  have := f.start0.isLt
  have := f.start1.isLt
  have := f.start2.isLt
  have := code.isLt
  have := f.enc.isLt
  have := f.inv.isLt
  refine ⟨?_, ?_, ?_, ?_, ?_, ?_, ?_⟩ <;>
    · apply BitVec.eq_of_toNat_eq
      rw [BitVec.extractLsb'_toNat, frameWord_toNat, Nat.shiftRight_eq_div_pow]
      first
        | omega
        | simp only [BitVec.toNat_ofNat]; omega

/-- A frame word with the header 1010 is its fields. -/
theorem frameWord_of_fields (w : BitVec 52) (h : w.extractLsb' 48 4 = 0b1010#4) :
    frameWord (w.extractLsb' 16 8) ⟨w.extractLsb' 40 8, w.extractLsb' 32 8, w.extractLsb' 24 8,
      w.extractLsb' 8 8, w.extractLsb' 0 8⟩ = w := by
  have h' := congrArg BitVec.toNat h
  apply BitVec.eq_of_toNat_eq
  rw [frameWord_toNat]
  simp only [BitVec.extractLsb'_toNat, Nat.shiftRight_eq_div_pow, BitVec.toNat_ofNat] at h' ⊢
  have := w.isLt
  omega

/-- Decoding the frame word of a code is looking up its row. -/
theorem decodeFrame_frameWord (code : Byte) (f : FrameFields) :
    decodeFrame (frameWord code f) = commandOf code f := by
  obtain ⟨h0, h1, h2, h3, h4, h5, h6⟩ := frameWord_fields code f
  simp only [decodeFrame, h0, h1, h2, h3, h4, h5, h6, if_true]

/-- The low bytes of a number that fits in them are the number. -/
theorem bytesToNat_natToBytes (n w : Nat) (h : w < 256 ^ n) : bytesToNat (natToBytes n w) = w := by
  induction n generalizing w with
  | zero => simp at h; simp [natToBytes, bytesToNat, h]
  | succ n ih =>
    have : w / 256 < 256 ^ n := Nat.div_lt_of_lt_mul (by rw [Nat.pow_succ, Nat.mul_comm] at h; exact h)
    simp only [natToBytes, bytesToNat, ih _ this, BitVec.toNat_ofNat]
    omega

@[simp] theorem natToBytes_length (n w : Nat) : (natToBytes n w).length = n := by
  induction n generalizing w with
  | zero => rfl
  | succ n ih => simp [natToBytes, ih]

end Sys2Proof
end

