-- ==== Sys2Proof/Laws/Memory.lean ====
section
/-! SUPPORT. The ROM: its canonical form, its bytes, and what a lookup answers. The one memory operation reads. -/

namespace Sys2Proof.Machine

/-- The ROM is in canonical form. -/
theorem rom_wf : Memory.wf rom = true := by decide

/-- The bytes of the ROM by address (R61). -/
theorem memRead_rows :
    (List.range 17).map memRead =
      [some 0x01#8, some 0x02#8, some 0x31#8, some 0x32#8, some 0x33#8, some 0x34#8, some 0x35#8,
       some 0x40#8, some 0x41#8, some 0x42#8, some 0x43#8, some 0x50#8, some 0x51#8, some 0x52#8, some 0x53#8,
       some 0x60#8, some 0x61#8] := by decide

/-! The byte at each address. -/

@[simp] theorem memRead_0 : memRead 0 = some 0x01#8 := by decide
@[simp] theorem memRead_1 : memRead 1 = some 0x02#8 := by decide
@[simp] theorem memRead_2 : memRead 2 = some 0x31#8 := by decide
@[simp] theorem memRead_3 : memRead 3 = some 0x32#8 := by decide
@[simp] theorem memRead_4 : memRead 4 = some 0x33#8 := by decide
@[simp] theorem memRead_5 : memRead 5 = some 0x34#8 := by decide
@[simp] theorem memRead_6 : memRead 6 = some 0x35#8 := by decide
@[simp] theorem memRead_7 : memRead 7 = some 0x40#8 := by decide
@[simp] theorem memRead_8 : memRead 8 = some 0x41#8 := by decide
@[simp] theorem memRead_9 : memRead 9 = some 0x42#8 := by decide
@[simp] theorem memRead_10 : memRead 10 = some 0x43#8 := by decide
@[simp] theorem memRead_11 : memRead 11 = some 0x50#8 := by decide
@[simp] theorem memRead_12 : memRead 12 = some 0x51#8 := by decide
@[simp] theorem memRead_13 : memRead 13 = some 0x52#8 := by decide
@[simp] theorem memRead_14 : memRead 14 = some 0x53#8 := by decide
@[simp] theorem memRead_15 : memRead 15 = some 0x60#8 := by decide
@[simp] theorem memRead_16 : memRead 16 = some 0x61#8 := by decide

/-- A memory whose addresses are all below `a` has no byte at `a`. -/
theorem Memory.read_none (m : Memory) (a : Nat) (h : ∀ c ∈ m, c.1 < a) : Memory.read m a = none := by
  induction m with
  | nil => rfl
  | cons c m ih =>
    have hc := h c (by simp)
    simp only [Memory.read, if_neg (by omega : ¬ c.1 = a)]
    exact ih fun d hd => h d (by simp [hd])

/-- The lookups of the two operations that ignore `req_val`. -/
@[simp] theorem romLookup_pwrOn (v : Byte) : romLookup 0x0#4 v = some 0x01#8 := rfl
@[simp] theorem romLookup_pwrOff (v : Byte) : romLookup 0x1#4 v = some 0x02#8 := rfl

/-- The lookup of the fan family. -/
theorem romLookup_fan (v : Byte) :
    romLookup 0x2#4 v = if v.toNat ≤ 3 then some (0x40#8 + v) else none := by
  revert v; decide

/-- The lookup of the flame family. -/
theorem romLookup_flame (v : Byte) :
    romLookup 0x3#4 v = if 1 ≤ v.toNat ∧ v.toNat ≤ 5 then some (0x30#8 + v) else none := by
  revert v; decide

/-- The lookup of the first AUX family. -/
theorem romLookup_aux1 (v : Byte) :
    romLookup 0x4#4 v = if v.toNat ≤ 3 then some (0x50#8 + v) else none := by
  revert v; decide

/-- The lookup of the second AUX family. -/
theorem romLookup_aux2 (v : Byte) :
    romLookup 0x5#4 v = if v.toNat ≤ 1 then some (0x60#8 + v) else none := by
  revert v; decide

/-- No operation above 5 has a row. -/
theorem romLookup_other (op : BitVec 4) (v : Byte) (h : 6 ≤ op.toNat) : romLookup op v = none := by
  unfold romLookup
  split <;> first | exact absurd h (by decide) | rfl

end Sys2Proof.Machine
end

