-- ==== Sys2Proof/Laws/State.lean ====
section
/-! SUPPORT. One lemma for each field of the state and each operation that updates it, so that no later proof unfolds a
record update. -/

namespace Sys2Proof.Machine

@[simp] theorem advance_st (s : State) : (s.advance).st = s.st := rfl
@[simp] theorem advance_rfOut (s : State) : (s.advance).rfOut = s.rfOut := rfl
@[simp] theorem advance_cmd (s : State) : (s.advance).cmd = s.cmd := rfl
@[simp] theorem advance_enc (s : State) : (s.advance).enc = s.enc := rfl
@[simp] theorem advance_seg (s : State) : (s.advance).seg = s.seg := rfl
@[simp] theorem advance_sh (s : State) : (s.advance).sh = s.sh := rfl
@[simp] theorem advance_nbit (s : State) : (s.advance).nbit = s.nbit := rfl
@[simp] theorem advance_rep (s : State) : (s.advance).rep = s.rep := rfl
@[simp] theorem advance_tcnt (s : State) : (s.advance).tcnt = s.tcnt := rfl
@[simp] theorem advance_rem (s : State) : (s.advance).rem = s.rem := rfl
@[simp] theorem advance_seqid (s : State) : (s.advance).seqid = s.seqid := rfl
@[simp] theorem advance_seqpc (s : State) : (s.advance).seqpc = s.seqpc := rfl
@[simp] theorem advance_cfg (s : State) : (s.advance).cfg = s.cfg := rfl
@[simp] theorem advance_host (s : State) : (s.advance).host = s.host.tail := rfl

@[simp] theorem resetTick_st (s : State) : (s.resetTick).st = .idle := rfl
@[simp] theorem resetTick_rfOut (s : State) : (s.resetTick).rfOut = false := rfl
@[simp] theorem resetTick_cmd (s : State) : (s.resetTick).cmd = 0#8 := rfl
@[simp] theorem resetTick_enc (s : State) : (s.resetTick).enc = 0#8 := rfl
@[simp] theorem resetTick_seg (s : State) : (s.resetTick).seg = 0#3 := rfl
@[simp] theorem resetTick_sh (s : State) : (s.resetTick).sh = 0#8 := rfl
@[simp] theorem resetTick_nbit (s : State) : (s.resetTick).nbit = 0#3 := rfl
@[simp] theorem resetTick_rep (s : State) : (s.resetTick).rep = 0#4 := rfl
@[simp] theorem resetTick_tcnt (s : State) : (s.resetTick).tcnt = 0#14 := rfl
@[simp] theorem resetTick_rem (s : State) : (s.resetTick).rem = 0#20 := rfl
@[simp] theorem resetTick_seqid (s : State) : (s.resetTick).seqid = .none := rfl
@[simp] theorem resetTick_seqpc (s : State) : (s.resetTick).seqpc = 0#2 := rfl
@[simp] theorem resetTick_cfg (s : State) : (s.resetTick).cfg = s.cfg := rfl
@[simp] theorem resetTick_host (s : State) : (s.resetTick).host = s.host.tail := rfl

@[simp] theorem loadSeg_st (i : BitVec 3) (c e : Byte) (s : State) : (loadSeg i c e s).st = s.st := rfl
@[simp] theorem loadSeg_rfOut (i : BitVec 3) (c e : Byte) (s : State) : (loadSeg i c e s).rfOut = s.rfOut := rfl
@[simp] theorem loadSeg_cmd (i : BitVec 3) (c e : Byte) (s : State) : (loadSeg i c e s).cmd = s.cmd := rfl
@[simp] theorem loadSeg_enc (i : BitVec 3) (c e : Byte) (s : State) : (loadSeg i c e s).enc = s.enc := rfl
@[simp] theorem loadSeg_seg (i : BitVec 3) (c e : Byte) (s : State) : (loadSeg i c e s).seg = s.seg := rfl
@[simp] theorem loadSeg_sh (i : BitVec 3) (c e : Byte) (s : State) : (loadSeg i c e s).sh = loadedShift s.cfg i c e := rfl
@[simp] theorem loadSeg_nbit (i : BitVec 3) (c e : Byte) (s : State) : (loadSeg i c e s).nbit = if i = 0#3 then 3#3 else 7#3 := rfl
@[simp] theorem loadSeg_rep (i : BitVec 3) (c e : Byte) (s : State) : (loadSeg i c e s).rep = s.rep := rfl
@[simp] theorem loadSeg_tcnt (i : BitVec 3) (c e : Byte) (s : State) : (loadSeg i c e s).tcnt = s.tcnt := rfl
@[simp] theorem loadSeg_rem (i : BitVec 3) (c e : Byte) (s : State) : (loadSeg i c e s).rem = s.rem := rfl
@[simp] theorem loadSeg_seqid (i : BitVec 3) (c e : Byte) (s : State) : (loadSeg i c e s).seqid = s.seqid := rfl
@[simp] theorem loadSeg_seqpc (i : BitVec 3) (c e : Byte) (s : State) : (loadSeg i c e s).seqpc = s.seqpc := rfl
@[simp] theorem loadSeg_cfg (i : BitVec 3) (c e : Byte) (s : State) : (loadSeg i c e s).cfg = s.cfg := rfl
@[simp] theorem loadSeg_host (i : BitVec 3) (c e : Byte) (s : State) : (loadSeg i c e s).host = s.host := rfl

@[simp] theorem startBit_st (v : Byte) (s : State) : (startBit v s).st = .high := rfl
@[simp] theorem startBit_rfOut (v : Byte) (s : State) : (startBit v s).rfOut = true := rfl
@[simp] theorem startBit_cmd (v : Byte) (s : State) : (startBit v s).cmd = s.cmd := rfl
@[simp] theorem startBit_enc (v : Byte) (s : State) : (startBit v s).enc = s.enc := rfl
@[simp] theorem startBit_seg (v : Byte) (s : State) : (startBit v s).seg = s.seg := rfl
@[simp] theorem startBit_sh (v : Byte) (s : State) : (startBit v s).sh = s.sh := rfl
@[simp] theorem startBit_nbit (v : Byte) (s : State) : (startBit v s).nbit = s.nbit := rfl
@[simp] theorem startBit_rep (v : Byte) (s : State) : (startBit v s).rep = s.rep := rfl
@[simp] theorem startBit_tcnt (v : Byte) (s : State) : (startBit v s).tcnt = ticks (highTime s.cfg (v.getLsbD 7)) := rfl
@[simp] theorem startBit_rem (v : Byte) (s : State) : (startBit v s).rem = s.rem := rfl
@[simp] theorem startBit_seqid (v : Byte) (s : State) : (startBit v s).seqid = s.seqid := rfl
@[simp] theorem startBit_seqpc (v : Byte) (s : State) : (startBit v s).seqpc = s.seqpc := rfl
@[simp] theorem startBit_cfg (v : Byte) (s : State) : (startBit v s).cfg = s.cfg := rfl
@[simp] theorem startBit_host (v : Byte) (s : State) : (startBit v s).host = s.host := rfl

@[simp] theorem startTx_st (c : Byte) (s : State) : (startTx c s).st = .high := rfl
@[simp] theorem startTx_rfOut (c : Byte) (s : State) : (startTx c s).rfOut = true := rfl
@[simp] theorem startTx_cmd (c : Byte) (s : State) : (startTx c s).cmd = c := rfl
@[simp] theorem startTx_enc (c : Byte) (s : State) : (startTx c s).enc = encodeByte s.cfg.k c := rfl
@[simp] theorem startTx_seg (c : Byte) (s : State) : (startTx c s).seg = 0#3 := rfl
/-- The header, left-aligned (R182, R183). -/
@[simp] theorem loadedShift_header (cfg : Config) (c e : Byte) : loadedShift cfg 0#3 c e = 0xA0#8 := by
  simp [loadedShift, segVal]

@[simp] theorem startTx_sh (c : Byte) (s : State) : (startTx c s).sh = 0xA0#8 := by
  simp [startTx]
@[simp] theorem startTx_nbit (c : Byte) (s : State) : (startTx c s).nbit = 3#3 := rfl
@[simp] theorem startTx_rep (c : Byte) (s : State) : (startTx c s).rep = 0#4 := rfl
@[simp] theorem startTx_tcnt (c : Byte) (s : State) : (startTx c s).tcnt = ticks s.cfg.t1 := rfl
@[simp] theorem startTx_rem (c : Byte) (s : State) : (startTx c s).rem = s.rem := rfl
@[simp] theorem startTx_seqid (c : Byte) (s : State) : (startTx c s).seqid = s.seqid := rfl
@[simp] theorem startTx_seqpc (c : Byte) (s : State) : (startTx c s).seqpc = s.seqpc := rfl
@[simp] theorem startTx_cfg (c : Byte) (s : State) : (startTx c s).cfg = s.cfg := rfl
@[simp] theorem startTx_host (c : Byte) (s : State) : (startTx c s).host = s.host := rfl

@[simp] theorem endHigh_st (s : State) : (endHigh s).st = .low := rfl
@[simp] theorem endHigh_rfOut (s : State) : (endHigh s).rfOut = false := rfl
@[simp] theorem endHigh_cmd (s : State) : (endHigh s).cmd = s.cmd := rfl
@[simp] theorem endHigh_enc (s : State) : (endHigh s).enc = s.enc := rfl
@[simp] theorem endHigh_seg (s : State) : (endHigh s).seg = s.seg := rfl
@[simp] theorem endHigh_sh (s : State) : (endHigh s).sh = s.sh := rfl
@[simp] theorem endHigh_nbit (s : State) : (endHigh s).nbit = s.nbit := rfl
@[simp] theorem endHigh_rep (s : State) : (endHigh s).rep = s.rep := rfl
@[simp] theorem endHigh_tcnt (s : State) : (endHigh s).tcnt = ticks (bitPause s.cfg s.seg) := rfl
@[simp] theorem endHigh_rem (s : State) : (endHigh s).rem = s.rem := rfl
@[simp] theorem endHigh_seqid (s : State) : (endHigh s).seqid = s.seqid := rfl
@[simp] theorem endHigh_seqpc (s : State) : (endHigh s).seqpc = s.seqpc := rfl
@[simp] theorem endHigh_cfg (s : State) : (endHigh s).cfg = s.cfg := rfl
@[simp] theorem endHigh_host (s : State) : (endHigh s).host = s.host := rfl

@[simp] theorem withRequest_st (w : BitVec 12) (s : State) : (s.withRequest w).st = .idle := rfl
@[simp] theorem withRequest_rfOut (w : BitVec 12) (s : State) : (s.withRequest w).rfOut = false := rfl
@[simp] theorem withRequest_cmd (w : BitVec 12) (s : State) : (s.withRequest w).cmd = s.cmd := rfl
@[simp] theorem withRequest_enc (w : BitVec 12) (s : State) : (s.withRequest w).enc = s.enc := rfl
@[simp] theorem withRequest_seg (w : BitVec 12) (s : State) : (s.withRequest w).seg = s.seg := rfl
@[simp] theorem withRequest_sh (w : BitVec 12) (s : State) : (s.withRequest w).sh = s.sh := rfl
@[simp] theorem withRequest_nbit (w : BitVec 12) (s : State) : (s.withRequest w).nbit = s.nbit := rfl
@[simp] theorem withRequest_rep (w : BitVec 12) (s : State) : (s.withRequest w).rep = s.rep := rfl
@[simp] theorem withRequest_tcnt (w : BitVec 12) (s : State) : (s.withRequest w).tcnt = s.tcnt := rfl
@[simp] theorem withRequest_rem (w : BitVec 12) (s : State) : (s.withRequest w).rem = s.rem := rfl
@[simp] theorem withRequest_seqid (w : BitVec 12) (s : State) : (s.withRequest w).seqid = .none := rfl
@[simp] theorem withRequest_seqpc (w : BitVec 12) (s : State) : (s.withRequest w).seqpc = 0#2 := rfl
@[simp] theorem withRequest_cfg (w : BitVec 12) (s : State) : (s.withRequest w).cfg = s.cfg := rfl
@[simp] theorem withRequest_host (w : BitVec 12) (s : State) : (s.withRequest w).host = Inputs.ofWord w :: s.host.tail := rfl

@[simp] theorem loadWait_st (d : Nat) (s : State) : (loadWait d s).st = s.st := by
  unfold loadWait; split <;> rfl
@[simp] theorem loadWait_rfOut (d : Nat) (s : State) : (loadWait d s).rfOut = s.rfOut := by
  unfold loadWait; split <;> rfl
@[simp] theorem loadWait_cmd (d : Nat) (s : State) : (loadWait d s).cmd = s.cmd := by
  unfold loadWait; split <;> rfl
@[simp] theorem loadWait_enc (d : Nat) (s : State) : (loadWait d s).enc = s.enc := by
  unfold loadWait; split <;> rfl
@[simp] theorem loadWait_seg (d : Nat) (s : State) : (loadWait d s).seg = s.seg := by
  unfold loadWait; split <;> rfl
@[simp] theorem loadWait_sh (d : Nat) (s : State) : (loadWait d s).sh = s.sh := by
  unfold loadWait; split <;> rfl
@[simp] theorem loadWait_nbit (d : Nat) (s : State) : (loadWait d s).nbit = s.nbit := by
  unfold loadWait; split <;> rfl
@[simp] theorem loadWait_rep (d : Nat) (s : State) : (loadWait d s).rep = s.rep := by
  unfold loadWait; split <;> rfl
@[simp] theorem loadWait_seqid (d : Nat) (s : State) : (loadWait d s).seqid = s.seqid := by
  unfold loadWait; split <;> rfl
@[simp] theorem loadWait_seqpc (d : Nat) (s : State) : (loadWait d s).seqpc = s.seqpc := by
  unfold loadWait; split <;> rfl
@[simp] theorem loadWait_cfg (d : Nat) (s : State) : (loadWait d s).cfg = s.cfg := by
  unfold loadWait; split <;> rfl
@[simp] theorem loadWait_host (d : Nat) (s : State) : (loadWait d s).host = s.host := by
  unfold loadWait; split <;> rfl

/-- The transmission's first tick, whole (R182). -/
theorem startTx_eq (c : Byte) (s : State) :
    startTx c s = { s with st := .high, rfOut := true, cmd := c, enc := encodeByte s.cfg.k c, seg := 0#3, sh := 0xA0#8,
                           nbit := 3#3, rep := 0#4, tcnt := ticks s.cfg.t1 } := by
  simp [startTx, startBit, loadSeg, highTime]

end Sys2Proof.Machine
end

