-- ==== Sys2Proof/Laws/Ops.lean ====
section
/-! SUPPORT. For each shared operation, what it can do. -/

namespace Sys2Proof.Machine

variable {s t : State} {f : State → State}

theorem guarded_legal (h : s.cfg.legal) : s.guarded f = .next (f s) := by
  simp only [State.guarded, if_pos h]

theorem guarded_illegal (h : ¬ s.cfg.legal) : s.guarded f = .refused .illegalConfiguration := by
  simp only [State.guarded, if_neg h]

/-- A guarded operation that answers a next state has run under a legal configuration. -/
theorem guarded_next (h : s.guarded f = .next t) : s.cfg.legal ∧ t = f s := by
  by_cases hl : s.cfg.legal
  · rw [guarded_legal hl] at h
    exact ⟨hl, by injection h with h; exact h.symm⟩
  · rw [guarded_illegal hl] at h
    cases h

/-- A request in `IDLE` is dispatched. -/
theorem request_idle (op : BitVec 4) (v : Byte) (hl : s.cfg.legal) (hi : s.st = .idle) :
    request op v s = .next (dispatch op v s) := by
  rw [request, guarded_legal hl, if_pos hi]

/-- A request in any other phase changes nothing. -/
theorem request_busy (op : BitVec 4) (v : Byte) (hl : s.cfg.legal) (hi : s.st ≠ .idle) :
    request op v s = .next s := by
  rw [request, guarded_legal hl, if_neg hi]

/-- A row of the ROM that is selected starts its command. -/
theorem command_starts {a : Nat} {c : Byte} (hl : s.cfg.legal) (hs : s.canStart = true) (hm : memRead a = some c) :
    command a s = .next (startTx c s) := by
  rw [command, guarded_legal hl, if_pos hs, hm]

/-- A row cannot be selected in any other tick. -/
theorem command_waits {a : Nat} (hl : s.cfg.legal) (hs : s.canStart = false) : command a s = .next s := by
  rw [command, guarded_legal hl, if_neg (by simp [hs])]

/-- When a command can start. -/
theorem canStart_iff :
    s.canStart = true ↔ s.st = .idle ∨ (s.st = .qgap ∧ s.tcnt ≤ 1#14 ∧ s.rem = 0#20) := by
  simp [State.canStart, and_assoc]

theorem dispatch_hit {op : BitVec 4} {v c : Byte} (h : romLookup op v = some c) :
    dispatch op v s = startTx c { s with seqid := .none, seqpc := 0#2 } := by
  have h5 : op.toNat ≤ 5 := by
    by_contra hn
    rw [romLookup_other op v (by omega)] at h
    cases h
  rw [dispatch, if_pos h5, h]

theorem dispatch_miss {op : BitVec 4} {v : Byte} (h5 : op.toNat ≤ 5) (h : romLookup op v = none) :
    dispatch op v s = s := by
  rw [dispatch, if_pos h5, h]

theorem dispatch_reserved {op : BitVec 4} {v : Byte} (h : 8 ≤ op.toNat) : dispatch op v s = s := by
  rw [dispatch, if_neg (by omega), if_neg (by omega), if_neg (by omega)]

theorem dispatch_start (v : Byte) :
    dispatch 0x6#4 v s = startTx 0x01#8 { s with seqid := .start, seqpc := 0#2 } := rfl

theorem dispatch_stop (v : Byte) :
    dispatch 0x7#4 v s = startTx 0x40#8 { s with seqid := .stop, seqpc := 0#2 } := rfl

/-- The five steps of the two sequences (R193). -/
theorem seqLookup_steps :
    seqLookup .start 0 = some 0x01#8 ∧ seqLookup .start 1 = some 0x40#8 ∧ seqLookup .start 2 = some 0x31#8 ∧
    seqLookup .stop 0 = some 0x40#8 ∧ seqLookup .stop 1 = some 0x02#8 := by decide

/-- A step of a sequence starts its command. -/
theorem seqStep_hit {id : SeqId} {pc : Nat} {c : Byte} (h : seqLookup id pc = some c) :
    seqStep id pc s = startTx c { s with seqid := id, seqpc := BitVec.ofNat 2 pc } := by
  simp only [seqStep, h]

/-- A load that fits is whole (R283). -/
theorem ticks_toNat {d : Nat} (h : d ≤ 16383) : (ticks d).toNat = d := by
  simp only [ticks, BitVec.toNat_ofNat]
  omega

theorem loadWait_long {d : Nat} (h : s.cfg.maxWait < d) :
    loadWait d s = { s with tcnt := ticks s.cfg.maxWait, rem := BitVec.ofNat 20 (d - s.cfg.maxWait) } := by
  rw [loadWait, if_pos h]

theorem loadWait_short {d : Nat} (h : d ≤ s.cfg.maxWait) : loadWait d s = { s with tcnt := ticks d, rem := 0#20 } := by
  rw [loadWait, if_neg (by omega)]

/-- `TxDone` either begins the wait of a sequence or ends the operation (R191). -/
theorem txDone_more {id : SeqId} {pc : Nat} (hid : id ≠ .none) (hpc : pc < id.last) :
    txDone id pc s = loadWait s.cfg.seqWait { s with st := .qgap, seqid := id, seqpc := BitVec.ofNat 2 pc } := by
  rw [txDone, if_pos ⟨hid, hpc⟩]

theorem txDone_over {id : SeqId} {pc : Nat} (h : id = .none ∨ id.last ≤ pc) :
    txDone id pc s = { s with st := .idle, seqid := .none, seqpc := 0#2 } := by
  rw [txDone, if_neg (by rintro ⟨h1, h2⟩; rcases h with h | h <;> [exact h1 h; omega])]

/-- What a tick of the timer does while the phase lasts, and at its end. -/
theorem timerTick_counts (h : 1#14 < s.tcnt) : timerTick s = { s with tcnt := s.tcnt - 1#14 } := by
  rw [timerTick, if_pos h]

theorem timerTick_ends (h : s.tcnt ≤ 1#14) : timerTick s = phaseEnd s := by
  rw [timerTick, if_neg (by simpa using h)]

/-- No operation of the machine writes the configuration or the host's list. -/
theorem dispatch_keeps (op : BitVec 4) (v : Byte) (s : State) :
    (dispatch op v s).cfg = s.cfg ∧ (dispatch op v s).host = s.host := by
  unfold dispatch seqStep txDone
  repeat' split
  all_goals simp

theorem txDone_keeps (id : SeqId) (pc : Nat) (s : State) :
    (txDone id pc s).cfg = s.cfg ∧ (txDone id pc s).host = s.host := by
  unfold txDone
  split <;> simp

theorem seqStep_keeps (id : SeqId) (pc : Nat) (s : State) :
    (seqStep id pc s).cfg = s.cfg ∧ (seqStep id pc s).host = s.host := by
  unfold seqStep
  split
  · simp
  · exact txDone_keeps ..

theorem phaseEnd_keeps (s : State) : (phaseEnd s).cfg = s.cfg ∧ (phaseEnd s).host = s.host := by
  unfold phaseEnd
  split
  · simp
  · simp
  · unfold endLow; split <;> simp
  · unfold endSgap; split
    · simp
    · split
      · simp
      · exact txDone_keeps ..
  · unfold endMgap; split <;> simp
  · unfold endQgap; split
    · simp
    · exact seqStep_keeps ..

theorem timerTick_keeps (s : State) : (timerTick s).cfg = s.cfg ∧ (timerTick s).host = s.host := by
  unfold timerTick
  split
  · simp
  · exact phaseEnd_keeps s

end Sys2Proof.Machine
end

