-- ==== Sys2Proof/Laws/PerInstr.lean ====
section
/-! SUPPORT. Per instruction: its word has the bits that spec/opcode_table.json fixes for its row, and only the rows of
format FRAME52 have the header 1010 (30_encoding.md R90, R94, R98, R99). -/

namespace Sys2Proof.Laws.EncodedWord

/-- The word is a request whose operation field, bits 11 to 8, is `op`. -/
def IsRequest (i : Instr) (op : BitVec 4) : Prop :=
  ∃ w, encode i = .req12 w ∧ w.extractLsb' 8 4 = op

/-- The word is a frame whose header is 1010, whose command byte, bits 23 to 16, is `code`, and whose last two bytes are
complements where the instruction is well-formed. -/
def IsFrame (i : Instr) (code : Byte) : Prop :=
  ∃ w, encode i = .frame52 w ∧ w.extractLsb' 48 4 = 0b1010#4 ∧ w.extractLsb' 16 8 = code ∧
    (i.wellFormed = true → w.extractLsb' 0 8 = ~~~(w.extractLsb' 8 8))

/-- The fixed bits of the row of each instruction. -/
def Statement : Instr → Prop
  | .pwrOn v => IsRequest (.pwrOn v) 0x0#4
  | .pwrOff v => IsRequest (.pwrOff v) 0x1#4
  | .setFan n => IsRequest (.setFan n) 0x2#4
  | .setFlame n => IsRequest (.setFlame n) 0x3#4
  | .setAux1 n => IsRequest (.setAux1 n) 0x4#4
  | .setAux2 n => IsRequest (.setAux2 n) 0x5#4
  | .seqStart v => IsRequest (.seqStart v) 0x6#4
  | .seqStop v => IsRequest (.seqStop v) 0x7#4
  | .reserved op v =>
    (Instr.reserved op v).wellFormed = true → IsRequest (.reserved op v) op ∧ op.getLsbD 3 = true
  | .powerOn f => IsFrame (.powerOn f) 0x01#8
  | .powerOff f => IsFrame (.powerOff f) 0x02#8
  | .flame1 f => IsFrame (.flame1 f) 0x31#8
  | .flame2 f => IsFrame (.flame2 f) 0x32#8
  | .flame3 f => IsFrame (.flame3 f) 0x33#8
  | .flame4 f => IsFrame (.flame4 f) 0x34#8
  | .flame5 f => IsFrame (.flame5 f) 0x35#8
  | .fan0 f => IsFrame (.fan0 f) 0x40#8
  | .fan1 f => IsFrame (.fan1 f) 0x41#8
  | .fan2 f => IsFrame (.fan2 f) 0x42#8
  | .fan3 f => IsFrame (.fan3 f) 0x43#8
  | .aux10 f => IsFrame (.aux10 f) 0x50#8
  | .aux11 f => IsFrame (.aux11 f) 0x51#8
  | .aux12 f => IsFrame (.aux12 f) 0x52#8
  | .aux13 f => IsFrame (.aux13 f) 0x53#8
  | .aux20 f => IsFrame (.aux20 f) 0x60#8
  | .aux21 f => IsFrame (.aux21 f) 0x61#8

/-- A request word has its operation where R90 puts it. -/
theorem isRequest_of_encode {i : Instr} {op : BitVec 4} {v : Byte} (h : encode i = .req12 (reqWord op v)) :
    IsRequest i op :=
  ⟨_, h, reqWord_op op v⟩

/-- A frame word has its header, its code and its last two bytes where R94 puts them. -/
theorem isFrame_of_encode {i : Instr} {code : Byte} {f : FrameFields} (h : encode i = .frame52 (frameWord code f))
    (hw : i.wellFormed = f.wellFormed) : IsFrame i code := by
  obtain ⟨h0, -, -, -, h4, h5, h6⟩ := frameWord_fields code f
  refine ⟨_, h, h0, h4, fun hi => ?_⟩
  rw [hw, FrameFields.wellFormed, beq_iff_eq] at hi
  rw [h5, h6, hi]

theorem pwrOn (v : Byte) : Statement (.pwrOn v) := isRequest_of_encode rfl
theorem pwrOff (v : Byte) : Statement (.pwrOff v) := isRequest_of_encode rfl
theorem setFan (n : Byte) : Statement (.setFan n) := isRequest_of_encode rfl
theorem setFlame (n : Byte) : Statement (.setFlame n) := isRequest_of_encode rfl
theorem setAux1 (n : Byte) : Statement (.setAux1 n) := isRequest_of_encode rfl
theorem setAux2 (n : Byte) : Statement (.setAux2 n) := isRequest_of_encode rfl
theorem seqStart (v : Byte) : Statement (.seqStart v) := isRequest_of_encode rfl
theorem seqStop (v : Byte) : Statement (.seqStop v) := isRequest_of_encode rfl

theorem reserved (op : BitVec 4) (v : Byte) : Statement (.reserved op v) := by
  intro h
  refine ⟨isRequest_of_encode rfl, ?_⟩
  have h8 : 8 ≤ op.toNat := of_decide_eq_true h
  clear h
  revert op
  decide

theorem powerOn (f : FrameFields) : Statement (.powerOn f) := isFrame_of_encode rfl rfl
theorem powerOff (f : FrameFields) : Statement (.powerOff f) := isFrame_of_encode rfl rfl
theorem flame1 (f : FrameFields) : Statement (.flame1 f) := isFrame_of_encode rfl rfl
theorem flame2 (f : FrameFields) : Statement (.flame2 f) := isFrame_of_encode rfl rfl
theorem flame3 (f : FrameFields) : Statement (.flame3 f) := isFrame_of_encode rfl rfl
theorem flame4 (f : FrameFields) : Statement (.flame4 f) := isFrame_of_encode rfl rfl
theorem flame5 (f : FrameFields) : Statement (.flame5 f) := isFrame_of_encode rfl rfl
theorem fan0 (f : FrameFields) : Statement (.fan0 f) := isFrame_of_encode rfl rfl
theorem fan1 (f : FrameFields) : Statement (.fan1 f) := isFrame_of_encode rfl rfl
theorem fan2 (f : FrameFields) : Statement (.fan2 f) := isFrame_of_encode rfl rfl
theorem fan3 (f : FrameFields) : Statement (.fan3 f) := isFrame_of_encode rfl rfl
theorem aux10 (f : FrameFields) : Statement (.aux10 f) := isFrame_of_encode rfl rfl
theorem aux11 (f : FrameFields) : Statement (.aux11 f) := isFrame_of_encode rfl rfl
theorem aux12 (f : FrameFields) : Statement (.aux12 f) := isFrame_of_encode rfl rfl
theorem aux13 (f : FrameFields) : Statement (.aux13 f) := isFrame_of_encode rfl rfl
theorem aux20 (f : FrameFields) : Statement (.aux20 f) := isFrame_of_encode rfl rfl
theorem aux21 (f : FrameFields) : Statement (.aux21 f) := isFrame_of_encode rfl rfl

end Sys2Proof.Laws.EncodedWord
end

