-- ==== Sys2Proof/Laws/Step.lean ====
section
/-! SUPPORT. What `exec` and a tick can do, said once. -/

namespace Sys2Proof.Machine

variable {s t : State}

/-! Each arm over its shared operation. -/

@[simp] theorem exec_pwrOn (v : Byte) (s : State) : exec (.pwrOn v) s = request 0x0#4 v s := rfl
@[simp] theorem exec_pwrOff (v : Byte) (s : State) : exec (.pwrOff v) s = request 0x1#4 v s := rfl
@[simp] theorem exec_setFan (n : Byte) (s : State) : exec (.setFan n) s = request 0x2#4 n s := rfl
@[simp] theorem exec_setFlame (n : Byte) (s : State) : exec (.setFlame n) s = request 0x3#4 n s := rfl
@[simp] theorem exec_setAux1 (n : Byte) (s : State) : exec (.setAux1 n) s = request 0x4#4 n s := rfl
@[simp] theorem exec_setAux2 (n : Byte) (s : State) : exec (.setAux2 n) s = request 0x5#4 n s := rfl
@[simp] theorem exec_seqStart (v : Byte) (s : State) : exec (.seqStart v) s = request 0x6#4 v s := rfl
@[simp] theorem exec_seqStop (v : Byte) (s : State) : exec (.seqStop v) s = request 0x7#4 v s := rfl
@[simp] theorem exec_reserved (op : BitVec 4) (v : Byte) (s : State) :
    exec (.reserved op v) s = s.guarded fun s => s := rfl
@[simp] theorem exec_powerOn (f : FrameFields) (s : State) : exec (.powerOn f) s = command 0 s := rfl
@[simp] theorem exec_powerOff (f : FrameFields) (s : State) : exec (.powerOff f) s = command 1 s := rfl
@[simp] theorem exec_flame1 (f : FrameFields) (s : State) : exec (.flame1 f) s = command 2 s := rfl
@[simp] theorem exec_flame2 (f : FrameFields) (s : State) : exec (.flame2 f) s = command 3 s := rfl
@[simp] theorem exec_flame3 (f : FrameFields) (s : State) : exec (.flame3 f) s = command 4 s := rfl
@[simp] theorem exec_flame4 (f : FrameFields) (s : State) : exec (.flame4 f) s = command 5 s := rfl
@[simp] theorem exec_flame5 (f : FrameFields) (s : State) : exec (.flame5 f) s = command 6 s := rfl
@[simp] theorem exec_fan0 (f : FrameFields) (s : State) : exec (.fan0 f) s = command 7 s := rfl
@[simp] theorem exec_fan1 (f : FrameFields) (s : State) : exec (.fan1 f) s = command 8 s := rfl
@[simp] theorem exec_fan2 (f : FrameFields) (s : State) : exec (.fan2 f) s = command 9 s := rfl
@[simp] theorem exec_fan3 (f : FrameFields) (s : State) : exec (.fan3 f) s = command 10 s := rfl
@[simp] theorem exec_aux10 (f : FrameFields) (s : State) : exec (.aux10 f) s = command 11 s := rfl
@[simp] theorem exec_aux11 (f : FrameFields) (s : State) : exec (.aux11 f) s = command 12 s := rfl
@[simp] theorem exec_aux12 (f : FrameFields) (s : State) : exec (.aux12 f) s = command 13 s := rfl
@[simp] theorem exec_aux13 (f : FrameFields) (s : State) : exec (.aux13 f) s = command 14 s := rfl
@[simp] theorem exec_aux20 (f : FrameFields) (s : State) : exec (.aux20 f) s = command 15 s := rfl
@[simp] theorem exec_aux21 (f : FrameFields) (s : State) : exec (.aux21 f) s = command 16 s := rfl

/-! The request that reaches each row of the ROM (40_command_table.md R124 to R140). -/

theorem requestFor_powerOn (f : FrameFields) : decodeReq (requestFor (.powerOn f)) = .pwrOn 0#8 :=
  decodeReq_pwrOn 0#8
theorem requestFor_powerOff (f : FrameFields) : decodeReq (requestFor (.powerOff f)) = .pwrOff 0#8 :=
  decodeReq_pwrOff 0#8
theorem requestFor_flame1 (f : FrameFields) : decodeReq (requestFor (.flame1 f)) = .setFlame 1#8 :=
  decodeReq_setFlame 1#8
theorem requestFor_flame2 (f : FrameFields) : decodeReq (requestFor (.flame2 f)) = .setFlame 2#8 :=
  decodeReq_setFlame 2#8
theorem requestFor_flame3 (f : FrameFields) : decodeReq (requestFor (.flame3 f)) = .setFlame 3#8 :=
  decodeReq_setFlame 3#8
theorem requestFor_flame4 (f : FrameFields) : decodeReq (requestFor (.flame4 f)) = .setFlame 4#8 :=
  decodeReq_setFlame 4#8
theorem requestFor_flame5 (f : FrameFields) : decodeReq (requestFor (.flame5 f)) = .setFlame 5#8 :=
  decodeReq_setFlame 5#8
theorem requestFor_fan0 (f : FrameFields) : decodeReq (requestFor (.fan0 f)) = .setFan 0#8 :=
  decodeReq_setFan 0#8
theorem requestFor_fan1 (f : FrameFields) : decodeReq (requestFor (.fan1 f)) = .setFan 1#8 :=
  decodeReq_setFan 1#8
theorem requestFor_fan2 (f : FrameFields) : decodeReq (requestFor (.fan2 f)) = .setFan 2#8 :=
  decodeReq_setFan 2#8
theorem requestFor_fan3 (f : FrameFields) : decodeReq (requestFor (.fan3 f)) = .setFan 3#8 :=
  decodeReq_setFan 3#8
theorem requestFor_aux10 (f : FrameFields) : decodeReq (requestFor (.aux10 f)) = .setAux1 0#8 :=
  decodeReq_setAux1 0#8
theorem requestFor_aux11 (f : FrameFields) : decodeReq (requestFor (.aux11 f)) = .setAux1 1#8 :=
  decodeReq_setAux1 1#8
theorem requestFor_aux12 (f : FrameFields) : decodeReq (requestFor (.aux12 f)) = .setAux1 2#8 :=
  decodeReq_setAux1 2#8
theorem requestFor_aux13 (f : FrameFields) : decodeReq (requestFor (.aux13 f)) = .setAux1 3#8 :=
  decodeReq_setAux1 3#8
theorem requestFor_aux20 (f : FrameFields) : decodeReq (requestFor (.aux20 f)) = .setAux2 0#8 :=
  decodeReq_setAux2 0#8
theorem requestFor_aux21 (f : FrameFields) : decodeReq (requestFor (.aux21 f)) = .setAux2 1#8 :=
  decodeReq_setAux2 1#8

/-- What `exec` can answer: nothing, a dispatched request in `IDLE`, or the start of a selected row. -/
theorem exec_cases {i : Instr} (h : exec i s = .next t) :
    s.cfg.legal ∧ (t = s ∨ (∃ op v, s.st = .idle ∧ t = dispatch op v s) ∨
      ∃ a c, s.canStart = true ∧ memRead a = some c ∧ t = startTx c s) := by
  have req : ∀ op v, request op v s = .next t →
      s.cfg.legal ∧ (t = s ∨ (∃ op v, s.st = .idle ∧ t = dispatch op v s) ∨
        ∃ a c, s.canStart = true ∧ memRead a = some c ∧ t = startTx c s) := by
    intro op v h
    obtain ⟨hl, ht⟩ := guarded_next h
    refine ⟨hl, ?_⟩
    by_cases hi : s.st = .idle
    · exact .inr (.inl ⟨op, v, hi, by rw [if_pos hi] at ht; exact ht⟩)
    · exact .inl (by rw [if_neg hi] at ht; exact ht)
  have row : ∀ a, command a s = .next t →
      s.cfg.legal ∧ (t = s ∨ (∃ op v, s.st = .idle ∧ t = dispatch op v s) ∨
        ∃ a c, s.canStart = true ∧ memRead a = some c ∧ t = startTx c s) := by
    intro a h
    obtain ⟨hl, ht⟩ := guarded_next h
    refine ⟨hl, ?_⟩
    by_cases hs : s.canStart = true
    · rw [if_pos hs] at ht
      cases hm : memRead a with
      | none => exact .inl (by rw [hm] at ht; exact ht)
      | some c => exact .inr (.inr ⟨a, c, hs, hm, by rw [hm] at ht; exact ht⟩)
    · exact .inl (by rw [if_neg hs] at ht; exact ht)
  cases i
  case reserved op v =>
    rw [exec_reserved] at h
    obtain ⟨hl, ht⟩ := guarded_next h
    exact ⟨hl, .inl ht⟩
  all_goals
    simp only [exec_pwrOn, exec_pwrOff, exec_setFan, exec_setFlame, exec_setAux1, exec_setAux2, exec_seqStart,
      exec_seqStop, exec_powerOn, exec_powerOff, exec_flame1, exec_flame2, exec_flame3, exec_flame4, exec_flame5,
      exec_fan0, exec_fan1, exec_fan2, exec_fan3, exec_aux10, exec_aux11, exec_aux12, exec_aux13, exec_aux20,
      exec_aux21] at h
    first
      | exact req _ _ h
      | exact row _ h

/-- What a dispatched request can do: nothing, or start a transmission for no sequence, or the first step of one. -/
theorem dispatch_cases (op : BitVec 4) (v : Byte) (s : State) :
    dispatch op v s = s ∨
      ∃ c id, (id = .none ∨ id = .start ∨ id = .stop) ∧
        dispatch op v s = startTx c { s with seqid := id, seqpc := 0#2 } := by
  by_cases h5 : op.toNat ≤ 5
  · cases hm : romLookup op v with
    | none => exact .inl (dispatch_miss h5 hm)
    | some c => exact .inr ⟨c, .none, .inl rfl, dispatch_hit hm⟩
  · by_cases h6 : op.toNat = 6
    · obtain rfl : op = 0x6#4 := BitVec.eq_of_toNat_eq h6
      exact .inr ⟨_, .start, .inr (.inl rfl), dispatch_start v⟩
    · by_cases h7 : op.toNat = 7
      · obtain rfl : op = 0x7#4 := BitVec.eq_of_toNat_eq h7
        exact .inr ⟨_, .stop, .inr (.inr rfl), dispatch_stop v⟩
      · exact .inl (dispatch_reserved (by omega))

theorem step_illegal (h : ¬ s.cfg.legal) : step s = .refused .illegalConfiguration := by
  rw [step, if_neg h]

theorem step_reset (hl : s.cfg.legal) (hr : s.inputs.rst = true) : step s = .next s.resetTick := by
  rw [step, if_pos hl, if_pos hr]

theorem step_request (hl : s.cfg.legal) (hr : s.inputs.rst = false) (hi : s.st = .idle)
    (hv : s.inputs.reqValid = true) : step s = exec s.fetched s.advance := by
  rw [step, if_pos hl, if_neg (by simp [hr]), if_pos hi, if_pos hv]

theorem step_quiet (hl : s.cfg.legal) (hr : s.inputs.rst = false) (hi : s.st = .idle)
    (hv : s.inputs.reqValid = false) : step s = .next s.advance := by
  rw [step, if_pos hl, if_neg (by simp [hr]), if_pos hi, if_neg (by simp [hv])]

theorem step_busy (hl : s.cfg.legal) (hr : s.inputs.rst = false) (hi : s.st ≠ .idle) :
    step s = .next (timerTick s.advance) := by
  rw [step, if_pos hl, if_neg (by simp [hr]), if_neg hi]

/-- What a tick that answers a next state has done. -/
theorem step_cases (h : step s = .next t) :
    s.cfg.legal ∧
      ((s.inputs.rst = true ∧ t = s.resetTick) ∨
       (s.inputs.rst = false ∧ s.st = .idle ∧ s.inputs.reqValid = true ∧ exec s.fetched s.advance = .next t) ∨
       (s.inputs.rst = false ∧ s.st = .idle ∧ s.inputs.reqValid = false ∧ t = s.advance) ∨
       (s.inputs.rst = false ∧ s.st ≠ .idle ∧ t = timerTick s.advance)) := by
  by_cases hl : s.cfg.legal
  swap
  · rw [step_illegal hl] at h; cases h
  refine ⟨hl, ?_⟩
  cases hr : s.inputs.rst with
  | true =>
    rw [step_reset hl hr] at h
    injection h with h
    exact .inl ⟨rfl, h.symm⟩
  | false =>
    by_cases hi : s.st = .idle
    · cases hv : s.inputs.reqValid with
      | true => rw [step_request hl hr hi hv] at h; exact .inr (.inl ⟨rfl, hi, rfl, h⟩)
      | false =>
        rw [step_quiet hl hr hi hv] at h
        injection h with h
        exact .inr (.inr (.inl ⟨rfl, hi, rfl, h.symm⟩))
    · rw [step_busy hl hr hi] at h
      injection h with h
      exact .inr (.inr (.inr ⟨rfl, hi, h.symm⟩))

end Sys2Proof.Machine
end

