-- ==== Sys2Proof/Laws/Waveform.lean ====
section
/-! SUPPORT. Waveforms: durations of parts, and a waveform as the levels of its ticks, whose run-length form is its
normal form (00_scope.md R11, 42_transmitter.md R199). -/

namespace Sys2Proof.Machine

@[simp] theorem dur_nil : dur [] = 0 := rfl

@[simp] theorem dur_cons (r : Run) (w : Waveform) : dur (r :: w) = r.2 + dur w := rfl

@[simp] theorem dur_append (v w : Waveform) : dur (v ++ w) = dur v + dur w := by
  induction v with
  | nil => simp
  | cons r v ih => simp only [List.cons_append, dur_cons, ih, Nat.add_assoc]

/-- A pause repeated: the duration of low runs is the sum of their lengths. -/
theorem dur_lows (l : List Nat) : dur (l.map fun d => (false, d)) = l.sum := by
  induction l with
  | nil => rfl
  | cons d l ih => simp only [List.map_cons, dur_cons, ih, List.sum_cons]

theorem dur_pushRun (r : Run) (w : Waveform) : dur (pushRun r w) = r.2 + dur w := by
  unfold pushRun
  split
  · omega
  · cases w with
    | nil => rfl
    | cons q w =>
      dsimp only
      split
      · simp only [dur_cons]
        omega
      · simp only [dur_cons]

/-- Normalising keeps the duration. -/
theorem dur_norm (w : Waveform) : dur (norm w) = dur w := by
  induction w with
  | nil => rfl
  | cons r w ih => rw [norm, dur_pushRun, ih, dur_cons]

/-- The levels of the ticks of a waveform, one for each tick. -/
def levels : Waveform → List Bool
  | [] => []
  | r :: w => List.replicate r.2 r.1 ++ levels w

@[simp] theorem levels_append (v w : Waveform) : levels (v ++ w) = levels v ++ levels w := by
  induction v with
  | nil => rfl
  | cons r v ih => simp only [List.cons_append, levels, ih, List.append_assoc]

@[simp] theorem levels_length (w : Waveform) : (levels w).length = dur w := by
  induction w with
  | nil => rfl
  | cons r w ih => simp only [levels, List.length_append, List.length_replicate, ih, dur_cons]

/-- An empty run put before a waveform disappears. -/
@[simp] theorem pushRun_zero (l : Bool) (w : Waveform) : pushRun (l, 0) w = w := rfl

/-- A tick put before a run of the same level lengthens it. -/
theorem pushRun_one (l : Bool) (d : Nat) (w : Waveform) : pushRun (l, 1) (pushRun (l, d) w) = pushRun (l, d + 1) w := by
  cases d with
  | zero => rfl
  | succ d =>
    cases w with
    | nil => simp [pushRun, Nat.add_comm]
    | cons q w =>
      by_cases h : l = q.1
      · simp [pushRun, if_pos h]
        omega
      · simp [pushRun, if_neg h, Nat.add_comm]

theorem runLength_replicate (l : Bool) (d : Nat) (bs : List Bool) :
    runLength (List.replicate d l ++ bs) = pushRun (l, d) (runLength bs) := by
  induction d with
  | zero => rfl
  | succ d ih => rw [List.replicate_succ, List.cons_append, runLength, ih, pushRun_one]

/-- The run-length form of the levels of a waveform is its normal form. -/
theorem runLength_levels (w : Waveform) : runLength (levels w) = norm w := by
  induction w with
  | nil => rfl
  | cons r w ih => rw [levels, runLength_replicate, ih, norm]

/-- Two waveforms with the same levels are the same signal. -/
theorem norm_eq_of_levels {v w : Waveform} (h : levels v = levels w) : norm v = norm w := by
  rw [← runLength_levels v, ← runLength_levels w, h]

/-! The chunks of a long wait (42_transmitter.md R173), by its two cases. -/

/-- More unfoldings than are needed change nothing. -/
theorem chunksFuel_enough {m : Nat} (hm : 1 ≤ m) (f g d : Nat) (hf : d ≤ f) (hg : d ≤ g) :
    chunksFuel m f d = chunksFuel m g d := by
  induction f generalizing g d with
  | zero =>
    obtain rfl : d = 0 := by omega
    cases g with
    | zero => rfl
    | succ g => simp [chunksFuel]
  | succ f ih =>
    cases g with
    | zero =>
      obtain rfl : d = 0 := by omega
      simp [chunksFuel]
    | succ g =>
      simp only [chunksFuel]
      split
      · rw [ih g (d - m) (by omega) (by omega)]
      · rfl

theorem chunks_short {m d : Nat} (h : d ≤ m) : chunks m d = [d] := by
  unfold chunks
  cases d with
  | zero => rfl
  | succ d => rw [chunksFuel, if_neg (by omega)]

theorem chunks_long {m d : Nat} (hm : 1 ≤ m) (h : m < d) : chunks m d = m :: chunks m (d - m) := by
  unfold chunks
  cases d with
  | zero => omega
  | succ d => rw [chunksFuel, if_pos h, chunksFuel_enough hm d (d + 1 - m) (d + 1 - m) (by omega) (by omega)]

end Sys2Proof.Machine
end

