-- ==== Sys2Proof/Laws/Run.lean ====
section
/-! SUPPORT. Runs of several ticks: put together from shorter ones, and read as waveforms. -/

namespace Sys2Proof.Machine

variable {s s' u : State} {tr tr' : List State} {m n : Nat}

@[simp] theorem observe_zero (s : State) : observe 0 s = some [] := rfl

/-- One tick and then the rest. -/
theorem observe_next (h : step s = .next s') (ht : observe n s' = some tr) : observe (n + 1) s = some (s' :: tr) := by
  simp only [observe, h, ht, Option.map_some]

theorem observe_one (h : step s = .next s') : observe 1 s = some [s'] :=
  observe_next h (observe_zero s')

/-- A run that answers is made of ticks that answer. -/
theorem observe_succ (h : observe (n + 1) s = some tr) :
    ∃ s' tr', step s = .next s' ∧ observe n s' = some tr' ∧ tr = s' :: tr' := by
  rw [observe] at h
  cases hs : step s with
  | next s' =>
    rw [hs] at h
    obtain ⟨tr', ht, rfl⟩ := Option.map_eq_some_iff.1 h
    exact ⟨s', tr', rfl, ht, rfl⟩
  | fault r => cases r
  | refused r => rw [hs] at h; cases h

/-- A run passes through as many states as it has ticks. -/
theorem observe_length (h : observe n s = some tr) : tr.length = n := by
  induction n generalizing s tr with
  | zero => cases h; rfl
  | succ n ih =>
    obtain ⟨s', tr', -, ht, rfl⟩ := observe_succ h
    rw [List.length_cons, ih ht]

/-- Two runs, the second from the last state of the first, are one run. -/
theorem observe_append (h : observe m s = some tr) (hu : (s :: tr).getLast? = some u) (h' : observe n u = some tr') :
    observe (m + n) s = some (tr ++ tr') := by
  induction m generalizing s tr with
  | zero =>
    cases h
    cases hu
    rw [Nat.zero_add]
    exact h'
  | succ m ih =>
    obtain ⟨s', tr₁, hs, ht, rfl⟩ := observe_succ h
    rw [List.getLast?_cons_cons] at hu
    rw [Nat.add_right_comm, observe_next hs (ih ht hu), List.cons_append]

/-- What the pin shows in a run whose levels are those of a waveform is its normal form. -/
theorem pinWave_eq_norm {w : Waveform} (h : tr.map State.rfOut = levels w) : pinWave tr = norm w := by
  rw [pinWave, h, runLength_levels]

/-- A host that does not reset does not reset later. -/
theorem noReset_tail (h : s.noReset) (hs : s'.host = s.host.tail) : s'.noReset := by
  intro p hp
  rw [hs] at hp
  exact h p (List.mem_of_mem_tail hp)

/-- Nor in this tick. -/
theorem noReset_rst (h : s.noReset) : s.inputs.rst = false := by
  unfold State.inputs
  cases hh : s.host with
  | nil => rfl
  | cons p l => exact h p (by rw [hh]; exact List.mem_cons_self)

/-- A tick of a running operation keeps the configuration and uses up one entry of the host's list. -/
theorem step_busy_keeps (h : step s = .next s') (hi : s.st ≠ .idle) (hr : s.inputs.rst = false) :
    s'.cfg = s.cfg ∧ s'.host = s.host.tail := by
  obtain ⟨-, ⟨h1, -⟩ | ⟨-, h1, -⟩ | ⟨-, h1, -⟩ | ⟨-, -, rfl⟩⟩ := step_cases h
  · rw [hr] at h1; cases h1
  · exact absurd h1 hi
  · exact absurd h1 hi
  · exact timerTick_keeps s.advance

/-- From `s` on the pin shows `w`, tick for tick, in states that have `P`; the state after them is `u`. -/
def Runs (P : State → Prop) (s : State) (w : Waveform) (u : State) : Prop :=
  ∃ l tr, observe (dur w) s = some tr ∧ s :: tr = l ++ [u] ∧ l.map State.rfOut = levels w ∧ ∀ x ∈ l, P x

variable {P : State → Prop} {v : State} {w w' : Waveform}

theorem Runs.nil : Runs P s [] s :=
  ⟨[], [], rfl, rfl, rfl, by simp⟩

/-- One after the other. -/
theorem Runs.append (h : Runs P s w u) (h' : Runs P u w' v) : Runs P s (w ++ w') v := by
  obtain ⟨l, tr, ho, he, hl, hp⟩ := h
  obtain ⟨l', tr', ho', he', hl', hp'⟩ := h'
  refine ⟨l ++ l', tr ++ tr', ?_, ?_, by rw [List.map_append, hl, hl', levels_append], ?_⟩
  · rw [dur_append]
    exact observe_append ho (by rw [he, List.getLast?_concat]) ho'
  · rw [← List.cons_append, he, List.append_assoc, List.append_assoc, List.singleton_append, he']
  · intro x hx
    rcases List.mem_append.1 hx with h | h
    · exact hp x h
    · exact hp' x h

/-- One tick. -/
theorem Runs.tick (h : step s = .next u) (hp : P s) : Runs P s [(s.rfOut, 1)] u :=
  ⟨[s], [u], observe_one h, rfl, rfl, by simpa using hp⟩

/-- Only the levels count. -/
theorem Runs.of_levels (h : Runs P s w u) (he : levels w = levels w') : Runs P s w' u := by
  obtain ⟨l, tr, ho, h1, h2, h3⟩ := h
  refine ⟨l, tr, ?_, h1, by rw [h2, he], h3⟩
  rw [← levels_length w', ← he, levels_length]
  exact ho

/-- A property of the states can be weakened. -/
theorem Runs.imp {Q : State → Prop} (h : Runs P s w u) (hq : ∀ x, P x → Q x) : Runs Q s w u := by
  obtain ⟨l, tr, ho, h1, h2, h3⟩ := h
  exact ⟨l, tr, ho, h1, h2, fun x hx => hq x (h3 x hx)⟩

/-- A phase: a run at the level of the pin for as many ticks as `tcnt` says, and then its end (R185). -/
theorem Runs.phase (n : Nat) (s : State) (hl : s.cfg.legal) (hr : s.noReset) (hi : s.st ≠ .idle) (hn : 1 ≤ n)
    (ht : s.tcnt.toNat = n) (hp : ∀ t h, P { s with tcnt := t, host := h }) :
    Runs P s [(s.rfOut, n)] (phaseEnd { s with tcnt := 1#14, host := s.host.drop n }) := by
  induction n generalizing s with
  | zero => omega
  | succ n ih =>
    have hps : P s := hp s.tcnt s.host
    have e := step_busy hl (noReset_rst hr) hi
    by_cases h1 : n = 0
    · subst h1
      have h2 : s.tcnt = 1#14 := by bv_omega
      rw [timerTick_ends (by simp [h2])] at e
      have h3 : ({ s with tcnt := 1#14, host := s.host.drop (0 + 1) } : State) = s.advance := by
        simp [State.advance, ← h2]
      rw [h3]
      exact Runs.tick e hps
    · rw [timerTick_counts (show 1#14 < s.advance.tcnt by simp only [advance_tcnt]; bv_omega)] at e
      have r := (Runs.tick e hps).append (ih { s.advance with tcnt := s.advance.tcnt - 1#14 } hl (noReset_tail hr rfl) hi
        (by omega) (by simp only [advance_tcnt]; bv_omega) fun t h => hp t h)
      have h2 : ({ { s.advance with tcnt := s.advance.tcnt - 1#14 } with
          tcnt := 1#14, host := ({ s.advance with tcnt := s.advance.tcnt - 1#14 } : State).host.drop n } : State) =
          { s with tcnt := 1#14, host := s.host.drop (n + 1) } := by
        simp [State.advance]
      rw [h2] at r
      apply r.of_levels
      simp [levels, State.advance, List.replicate_succ]

/-- A run that begins one tick after a state, as `observe` sees it. -/
theorem Runs.observe_from (h : step s = .next u) (r : Runs P u w v) :
    ∃ l, observe (dur w + 1) s = some (l ++ [v]) ∧ l.length = dur w ∧ l.map State.rfOut = levels w ∧ ∀ x ∈ l, P x := by
  obtain ⟨l, tr, ho, he, hl, hp⟩ := r
  exact ⟨l, by rw [observe_next h ho, he], by rw [← List.length_map (f := State.rfOut), hl, levels_length], hl, hp⟩

end Sys2Proof.Machine
end

