-- ==== Sys2Proof/Tests/Slice0.lean ====
section
/-! SUPPORT. Tests, with results from spec/95_test_vectors.md (its configuration TC1) and from the encodings of
30_encoding.md, and for every obligation with hypotheses a witness that meets them. -/

namespace Sys2Proof.Tests

open Sys2Proof.Machine Sys2Proof.Statements

/-- TC1 (95_test_vectors.md section 1). -/
def tc1 : Config := .withDefaultTiming 0xFE#8 0x12#8 0x34#8 0x56#8

/-- The reset state `S_0` under TC1, with a host. -/
def start (host : List Inputs) : State := .resetWith tc1 host

/-- A state line of 95_test_vectors.md, with the host still to come. -/
def line (st : Phase) (rfOut : Bool) (cmd enc : Byte) (seg : BitVec 3) (sh : Byte) (nbit : BitVec 3) (rep : BitVec 4)
    (tcnt : BitVec 14) (rem : BitVec 20) (seqid : SeqId) (seqpc : BitVec 2) : State :=
  { st, rfOut, cmd, enc, seg, sh, nbit, rep, tcnt, rem, seqid, seqpc, cfg := tc1, host := [] }

/-- The state after the acceptance of a request that hits: `S_1` of a line, for a code and its encoding. -/
def started (cmd enc : Byte) (id : SeqId) : State := line .high true cmd enc 0 0xA0#8 3 0 880 0 id 0

/-- A state with a request on the ports. -/
def asks (w : BitVec 12) (s : State) : State := { s with host := [Inputs.ofWord w] }

/-- The fields of a frame under TC1, for the encoded code and its complement. -/
def fields (enc inv : Byte) : FrameFields := ⟨0x12#8, 0x34#8, 0x56#8, enc, inv⟩

/-! WellFormed: an ill-formed term for each check, which the check refuses. -/

theorem test_reserved_below_eight_is_refused : (Instr.reserved 0x7#4 0#8).wellFormed = false := by decide
theorem test_reserved_from_eight_is_accepted : (Instr.reserved 0x8#4 0#8).wellFormed = true := by decide
theorem test_request_is_accepted : (Instr.pwrOn 0xFF#8).wellFormed = true := by decide

/-- Every frame row asks for the complement property (41_frame_encoder.md R154). -/
theorem test_frame_without_complement_is_refused :
    (Instr.wellFormed (.powerOn (fields 0x32#8 0xCC#8)) || Instr.wellFormed (.powerOff (fields 0x32#8 0xCC#8)) ||
     Instr.wellFormed (.flame1 (fields 0x32#8 0xCC#8)) || Instr.wellFormed (.flame2 (fields 0x32#8 0xCC#8)) ||
     Instr.wellFormed (.flame3 (fields 0x32#8 0xCC#8)) || Instr.wellFormed (.flame4 (fields 0x32#8 0xCC#8)) ||
     Instr.wellFormed (.flame5 (fields 0x32#8 0xCC#8)) || Instr.wellFormed (.fan0 (fields 0x32#8 0xCC#8)) ||
     Instr.wellFormed (.fan1 (fields 0x32#8 0xCC#8)) || Instr.wellFormed (.fan2 (fields 0x32#8 0xCC#8)) ||
     Instr.wellFormed (.fan3 (fields 0x32#8 0xCC#8)) || Instr.wellFormed (.aux10 (fields 0x32#8 0xCC#8)) ||
     Instr.wellFormed (.aux11 (fields 0x32#8 0xCC#8)) || Instr.wellFormed (.aux12 (fields 0x32#8 0xCC#8)) ||
     Instr.wellFormed (.aux13 (fields 0x32#8 0xCC#8)) || Instr.wellFormed (.aux20 (fields 0x32#8 0xCC#8)) ||
     Instr.wellFormed (.aux21 (fields 0x32#8 0xCC#8))) = false := by decide

/-! Decoding: a word of each row, written out from 30_encoding.md R90 and R94 (fields apart, `_` between them). -/

theorem test_decode_pwrOn : decode (.req12 0b0000_00000000#12) = .ok (.pwrOn 0x00#8) := by rfl
theorem test_decode_pwrOff : decode (.req12 0b0001_10000001#12) = .ok (.pwrOff 0x81#8) := by rfl
theorem test_decode_setFan : decode (.req12 0b0010_00000011#12) = .ok (.setFan 3#8) := by rfl
theorem test_decode_setFlame : decode (.req12 0b0011_00000101#12) = .ok (.setFlame 5#8) := by rfl
theorem test_decode_setAux1 : decode (.req12 0b0100_00000010#12) = .ok (.setAux1 2#8) := by rfl
theorem test_decode_setAux2 : decode (.req12 0b0101_00000001#12) = .ok (.setAux2 1#8) := by rfl
theorem test_decode_seqStart : decode (.req12 0b0110_11111111#12) = .ok (.seqStart 0xFF#8) := by rfl
theorem test_decode_seqStop : decode (.req12 0b0111_00000000#12) = .ok (.seqStop 0x00#8) := by rfl
theorem test_decode_reserved : decode (.req12 0b1001_00000000#12) = .ok (.reserved 0x9#4 0x00#8) := by rfl
theorem test_decode_reserved_first : decode (.req12 0b1000_00000000#12) = .ok (.reserved 0x8#4 0x00#8) := by rfl
theorem test_decode_reserved_last : decode (.req12 0b1111_11111111#12) = .ok (.reserved 0xF#4 0xFF#8) := by rfl

theorem test_decode_powerOn :
    decode (.frame52 0b1010_00010010_00110100_01010110_00000001_11111110_00000001#52) =
      .ok (.powerOn (fields 0xFE#8 0x01#8)) := by rfl
theorem test_decode_powerOff :
    decode (.frame52 0b1010_00010010_00110100_01010110_00000010_11111111_00000000#52) =
      .ok (.powerOff (fields 0xFF#8 0x00#8)) := by rfl
theorem test_decode_flame1 :
    decode (.frame52 0b1010_00010010_00110100_01010110_00110001_00101110_11010001#52) =
      .ok (.flame1 (fields 0x2E#8 0xD1#8)) := by rfl
theorem test_decode_flame2 :
    decode (.frame52 0b1010_00010010_00110100_01010110_00110010_00101111_11010000#52) =
      .ok (.flame2 (fields 0x2F#8 0xD0#8)) := by rfl
theorem test_decode_flame3 :
    decode (.frame52 0b1010_00010010_00110100_01010110_00110011_00110000_11001111#52) =
      .ok (.flame3 (fields 0x30#8 0xCF#8)) := by rfl
theorem test_decode_flame4 :
    decode (.frame52 0b1010_00010010_00110100_01010110_00110100_00110001_11001110#52) =
      .ok (.flame4 (fields 0x31#8 0xCE#8)) := by rfl
theorem test_decode_flame5 :
    decode (.frame52 0b1010_00010010_00110100_01010110_00110101_00110010_11001101#52) =
      .ok (.flame5 (fields 0x32#8 0xCD#8)) := by rfl
theorem test_decode_fan0 :
    decode (.frame52 0b1010_00010010_00110100_01010110_01000000_00111101_11000010#52) =
      .ok (.fan0 (fields 0x3D#8 0xC2#8)) := by rfl
theorem test_decode_fan1 :
    decode (.frame52 0b1010_00010010_00110100_01010110_01000001_00111110_11000001#52) =
      .ok (.fan1 (fields 0x3E#8 0xC1#8)) := by rfl
theorem test_decode_fan2 :
    decode (.frame52 0b1010_00010010_00110100_01010110_01000010_00111111_11000000#52) =
      .ok (.fan2 (fields 0x3F#8 0xC0#8)) := by rfl
theorem test_decode_fan3 :
    decode (.frame52 0b1010_00010010_00110100_01010110_01000011_01000000_10111111#52) =
      .ok (.fan3 (fields 0x40#8 0xBF#8)) := by rfl
theorem test_decode_aux10 :
    decode (.frame52 0b1010_00010010_00110100_01010110_01010000_01001101_10110010#52) =
      .ok (.aux10 (fields 0x4D#8 0xB2#8)) := by rfl
theorem test_decode_aux11 :
    decode (.frame52 0b1010_00010010_00110100_01010110_01010001_01001110_10110001#52) =
      .ok (.aux11 (fields 0x4E#8 0xB1#8)) := by rfl
theorem test_decode_aux12 :
    decode (.frame52 0b1010_00010010_00110100_01010110_01010010_01001111_10110000#52) =
      .ok (.aux12 (fields 0x4F#8 0xB0#8)) := by rfl
theorem test_decode_aux13 :
    decode (.frame52 0b1010_00010010_00110100_01010110_01010011_01010000_10101111#52) =
      .ok (.aux13 (fields 0x50#8 0xAF#8)) := by rfl
theorem test_decode_aux20 :
    decode (.frame52 0b1010_00010010_00110100_01010110_01100000_01011101_10100010#52) =
      .ok (.aux20 (fields 0x5D#8 0xA2#8)) := by rfl
theorem test_decode_aux21 :
    decode (.frame52 0b1010_00010010_00110100_01010110_01100001_01011110_10100001#52) =
      .ok (.aux21 (fields 0x5E#8 0xA1#8)) := by rfl

/-- The command byte 0x03 is no code (R99). -/
theorem test_decode_unknown_code : decode (.frame52 0xA12345603FE01#52) = .error .unknownCode := by rfl
theorem test_decode_code_zero : decode (.frame52 0xA12345600FD02#52) = .error .unknownCode := by rfl
theorem test_decode_bad_header : decode (.frame52 0xB12345601FE01#52) = .error .badHeader := by rfl
theorem test_decode_three_bytes : decodeBytes [0x00#8, 0x00#8, 0x00#8] = .error .wrongLength := by rfl
theorem test_decode_request_padding : decodeBytes [0x00#8, 0x10#8] = .error .paddingNotZero := by rfl
theorem test_decode_frame_padding :
    decodeBytes [0x01#8, 0xFE#8, 0x01#8, 0x56#8, 0x34#8, 0x12#8, 0x1A#8] = .error .paddingNotZero := by rfl
theorem test_decode_request_bytes : decodeBytes [0x05#8, 0x03#8] = .ok (.setFlame 5#8) := by rfl
theorem test_decode_frame_bytes :
    decodeBytes [0x01#8, 0xFE#8, 0x01#8, 0x56#8, 0x34#8, 0x12#8, 0x0A#8] = .ok (.powerOn (fields 0xFE#8 0x01#8)) := by
  rfl
theorem test_decodeTableWord : decodeTableWord 12 0x305 = some (.setFlame 5#8) ∧
    decodeTableWord 52 0xA1234563532CD = some (.flame5 (fields 0x32#8 0xCD#8)) := by decide

/-! The ROM and the encoder (95_test_vectors.md sections 3.1 and 3.2). -/

/-- The misses of section 3.1. -/
theorem test_romLookup_misses :
    romLookup 0x3#4 0#8 = none ∧ romLookup 0x3#4 6#8 = none ∧ romLookup 0x2#4 4#8 = none ∧
    romLookup 0x2#4 255#8 = none ∧ romLookup 0x4#4 4#8 = none ∧ romLookup 0x5#4 2#8 = none ∧
    romLookup 0x4#4 10#8 = none ∧ romLookup 0x2#4 10#8 = none ∧ romLookup 0x9#4 0#8 = none := by decide

/-- The name-level lookups of section 3.1. -/
theorem test_resolve :
    resolve "PowerOn" = some 0x01#8 ∧ resolve "poweron" = none ∧ resolve "POWERON" = none ∧
    resolve " PowerOn" = none ∧ resolve "PowerOn " = none ∧ resolve "" = none ∧ resolve "Flame05" = none ∧
    resolve "Flame" = none ∧ resolve "Fan0" = some 0x40#8 := by decide

theorem test_resolveWithValue :
    resolveWithValue "Flame" 5 = some 0x35#8 ∧ resolveWithValue "Flame" 0 = none ∧
    resolveWithValue "Fan" 4 = none ∧ resolveWithValue "Fan" (-1) = none := by decide

theorem test_keyOf : keyOf 0x3#4 5#8 = some "Flame5" ∧ keyOf 0x4#4 10#8 = some "AUX110" ∧ keyOf 0x6#4 0#8 = none := by
  decide

theorem test_encode_of_the_document : encodeByte 0xFE#8 0x01#8 = 0xFE#8 ∧ invByte 0xFE#8 = 0x01#8 := by decide
theorem test_encode_corrected_example : encodeByte 0xFE#8 0x35#8 = 0x32#8 ∧ invByte 0x32#8 = 0xCD#8 := by decide
theorem test_encode_corners :
    encodeByte 0x00#8 0x00#8 = 0xFF#8 ∧ encodeByte 0xFE#8 0x03#8 = 0x00#8 ∧ encodeByte 0x01#8 0x35#8 = 0x35#8 ∧
    encodeByte 0xFF#8 0xFF#8 = 0xFD#8 ∧ encodeByte 0x81#8 0x80#8 = 0x00#8 := by decide

theorem test_frameBits : frameBits tc1 0x35#8 = 0xA1234563532CD#52 ∧ frameBits tc1 0x02#8 = 0xA12345602FF00#52 := by
  decide

/-! The waveform functions (sections 3.3 and 3.4). -/

/-- The example of 42_transmitter.md R171. -/
theorem test_emitSegment_header :
    emitSegment tc1 0b1010#8 4 420 830 =
      [(true, 880), (false, 420), (true, 380), (false, 420), (true, 880), (false, 420), (true, 380), (false, 420),
       (false, 830)] := by decide

/-- The segment line 0 and the runs of segment 1 in section 3.3, in normal form. -/
theorem test_norm_of_two_segments :
    norm (emitSegment tc1 0b1010#8 4 420 830 ++ emitSegment tc1 0x12#8 8 700 820) =
      [(true, 880), (false, 420), (true, 380), (false, 420), (true, 880), (false, 420), (true, 380), (false, 1250),
       (true, 380), (false, 700), (true, 380), (false, 700), (true, 380), (false, 700), (true, 880), (false, 700),
       (true, 380), (false, 700), (true, 380), (false, 700), (true, 880), (false, 700), (true, 380), (false, 1520)] := by
  decide

theorem test_frame_duration : dur (emitFrame tc1 0x35#8) = 72290 ∧ dur (emitFrame tc1 0x01#8) = 70790 := by decide
theorem test_transmission_duration : dur (transmit tc1 0x35#8) = 1541000 := by decide +kernel

theorem test_chunks :
    chunks 16383 1 = [1] ∧ chunks 16383 16383 = [16383] ∧ chunks 16383 16384 = [16383, 1] ∧
    chunks 16383 32766 = [16383, 16383] ∧ chunks 16383 90900 = [16383, 16383, 16383, 16383, 16383, 8985] := by
  simp [chunks, chunksFuel]

theorem test_loadWait :
    (loadWait 90900 (start [])).tcnt = 16383#14 ∧ (loadWait 90900 (start [])).rem = 74517#20 ∧
    (loadWait 1000000 (start [])).rem = 983617#20 := by decide

/-! The instructions: a hit for each, by its request from `S_0` (section 3.1), and the misses. -/

theorem test_powerOn : exec (.powerOn (fields 0xFE#8 0x01#8)) (start []) = .next (started 0x01#8 0xFE#8 .none) := by rfl
theorem test_powerOff : exec (.powerOff (fields 0xFF#8 0x00#8)) (start []) = .next (started 0x02#8 0xFF#8 .none) := by rfl
theorem test_flame1 : exec (.flame1 (fields 0x2E#8 0xD1#8)) (start []) = .next (started 0x31#8 0x2E#8 .none) := by rfl
theorem test_flame2 : exec (.flame2 (fields 0x2F#8 0xD0#8)) (start []) = .next (started 0x32#8 0x2F#8 .none) := by rfl
theorem test_flame3 : exec (.flame3 (fields 0x30#8 0xCF#8)) (start []) = .next (started 0x33#8 0x30#8 .none) := by rfl
theorem test_flame4 : exec (.flame4 (fields 0x31#8 0xCE#8)) (start []) = .next (started 0x34#8 0x31#8 .none) := by rfl
theorem test_flame5 : exec (.flame5 (fields 0x32#8 0xCD#8)) (start []) = .next (started 0x35#8 0x32#8 .none) := by rfl
theorem test_fan0 : exec (.fan0 (fields 0x3D#8 0xC2#8)) (start []) = .next (started 0x40#8 0x3D#8 .none) := by rfl
theorem test_fan1 : exec (.fan1 (fields 0x3E#8 0xC1#8)) (start []) = .next (started 0x41#8 0x3E#8 .none) := by rfl
theorem test_fan2 : exec (.fan2 (fields 0x3F#8 0xC0#8)) (start []) = .next (started 0x42#8 0x3F#8 .none) := by rfl
theorem test_fan3 : exec (.fan3 (fields 0x40#8 0xBF#8)) (start []) = .next (started 0x43#8 0x40#8 .none) := by rfl
theorem test_aux10 : exec (.aux10 (fields 0x4D#8 0xB2#8)) (start []) = .next (started 0x50#8 0x4D#8 .none) := by rfl
theorem test_aux11 : exec (.aux11 (fields 0x4E#8 0xB1#8)) (start []) = .next (started 0x51#8 0x4E#8 .none) := by rfl
theorem test_aux12 : exec (.aux12 (fields 0x4F#8 0xB0#8)) (start []) = .next (started 0x52#8 0x4F#8 .none) := by rfl
theorem test_aux13 : exec (.aux13 (fields 0x50#8 0xAF#8)) (start []) = .next (started 0x53#8 0x50#8 .none) := by rfl
theorem test_aux20 : exec (.aux20 (fields 0x5D#8 0xA2#8)) (start []) = .next (started 0x60#8 0x5D#8 .none) := by rfl
theorem test_aux21 : exec (.aux21 (fields 0x5E#8 0xA1#8)) (start []) = .next (started 0x61#8 0x5E#8 .none) := by rfl

theorem test_pwrOn : step (asks 0x000#12 (start [])) = .next (started 0x01#8 0xFE#8 .none) := by rfl
theorem test_pwrOff : step (asks 0x1AB#12 (start [])) = .next (started 0x02#8 0xFF#8 .none) := by rfl
theorem test_setFan : step (asks 0x203#12 (start [])) = .next (started 0x43#8 0x40#8 .none) := by rfl
theorem test_setFan_miss : step (asks 0x204#12 (start [])) = .next (start []) := by rfl
theorem test_setFlame : step (asks 0x305#12 (start [])) = .next (started 0x35#8 0x32#8 .none) := by rfl
theorem test_setFlame_miss : step (asks 0x300#12 (start [])) = .next (start []) := by rfl
theorem test_setAux1 : step (asks 0x402#12 (start [])) = .next (started 0x52#8 0x4F#8 .none) := by rfl
theorem test_setAux1_miss : step (asks 0x40A#12 (start [])) = .next (start []) := by rfl
theorem test_setAux2 : step (asks 0x501#12 (start [])) = .next (started 0x61#8 0x5E#8 .none) := by rfl
theorem test_setAux2_miss : step (asks 0x502#12 (start [])) = .next (start []) := by rfl
theorem test_seqStart : step (asks 0x600#12 (start [])) = .next (started 0x01#8 0xFE#8 .start) := by rfl
theorem test_seqStop : step (asks 0x700#12 (start [])) = .next (started 0x40#8 0x3D#8 .stop) := by rfl
theorem test_reserved : step (asks 0x900#12 (start [])) = .next (start []) := by rfl

/-- A tick without a request in `IDLE` (the run of P2 and P6 before a request). -/
theorem test_quiet_tick : step (start []) = .next (start []) := by rfl

/-! One tick: the state lines of sections 3.5 and 4. -/

/-- `S_1` to `S_2`. -/
theorem test_timer_counts :
    step (line .high true 0x35#8 0x32#8 0 0xA0#8 3 0 880 0 .none 0) =
      .next (line .high true 0x35#8 0x32#8 0 0xA0#8 3 0 879 0 .none 0) := by rfl

/-- `S_880` to `S_881`. -/
theorem test_high_ends :
    step (line .high true 0x35#8 0x32#8 0 0xA0#8 3 0 1 0 .none 0) =
      .next (line .low false 0x35#8 0x32#8 0 0xA0#8 3 0 420 0 .none 0) := by rfl

/-- The tick into `S_1301`. -/
theorem test_low_ends_in_the_next_bit :
    step (line .low false 0x35#8 0x32#8 0 0xA0#8 3 0 1 0 .none 0) =
      .next (line .high true 0x35#8 0x32#8 0 0x40#8 2 0 380 0 .none 0) := by rfl

/-- The tick into `S_4201`. -/
theorem test_low_ends_in_the_segment_pause :
    step (line .low false 0x35#8 0x32#8 0 0x00#8 0 0 1 0 .none 0) =
      .next (line .sgap false 0x35#8 0x32#8 0 0x00#8 0 0 830 0 .none 0) := by rfl

/-- The tick into `S_5031`. -/
theorem test_sgap_ends_in_the_next_segment :
    step (line .sgap false 0x35#8 0x32#8 0 0x00#8 0 0 1 0 .none 0) =
      .next (line .high true 0x35#8 0x32#8 1 0x12#8 7 0 380 0 .none 0) := by rfl

/-- The tick into `S_72291`. -/
theorem test_sgap_ends_in_the_message_idle :
    step (line .sgap false 0x35#8 0x32#8 6 0x80#8 0 0 1 0 .none 0) =
      .next (line .mgap false 0x35#8 0x32#8 6 0x80#8 0 0 16383 74517 .none 0) := by rfl

/-- The tick into `S_154206`. -/
theorem test_mgap_ends_in_the_last_chunk :
    step (line .mgap false 0x35#8 0x32#8 6 0x80#8 0 0 1 8985 .none 0) =
      .next (line .mgap false 0x35#8 0x32#8 6 0x80#8 0 0 8985 0 .none 0) := by rfl

/-- The tick into `S_163191`. -/
theorem test_mgap_ends_in_the_next_frame :
    step (line .mgap false 0x35#8 0x32#8 6 0x80#8 0 0 1 0 .none 0) =
      .next (line .high true 0x35#8 0x32#8 0 0xA0#8 3 1 880 0 .none 0) := by rfl

/-- The tick into `S_1541001`. -/
theorem test_sgap_ends_the_operation :
    step (line .sgap false 0x35#8 0x32#8 6 0x80#8 0 9 1 0 .none 0) =
      .next (line .idle false 0x35#8 0x32#8 6 0x80#8 0 9 1 0 .none 0) := by rfl

/-- P3, the tick into `S_1526001`. -/
theorem test_sgap_ends_in_the_wait_of_the_sequence :
    step (line .sgap false 0x01#8 0xFE#8 6 0x80#8 0 9 1 0 .start 0) =
      .next (line .qgap false 0x01#8 0xFE#8 6 0x80#8 0 9 16383 983617 .start 0) := by rfl

/-- P3, the tick into `S_2526001`. -/
theorem test_qgap_ends_in_the_next_step :
    step (line .qgap false 0x01#8 0xFE#8 6 0x80#8 0 9 1 0 .start 0) =
      .next (line .high true 0x40#8 0x3D#8 0 0xA0#8 3 0 880 0 .start 1) := by rfl

/-- P5, the tick into `S_2526001`. -/
theorem test_qgap_ends_in_the_last_step_of_the_stop_sequence :
    step (line .qgap false 0x40#8 0x3D#8 6 0x00#8 0 9 1 0 .stop 0) =
      .next (line .high true 0x02#8 0xFF#8 0 0xA0#8 3 0 880 0 .stop 1) := by rfl

/-- P3: a request in the wait of a sequence leaves no trace. -/
theorem test_request_in_the_wait_is_lost :
    step (asks 0x303#12 (line .qgap false 0x01#8 0xFE#8 6 0x80#8 0 9 500 0 .start 0)) =
      .next (line .qgap false 0x01#8 0xFE#8 6 0x80#8 0 9 499 0 .start 0) := by rfl

/-- P4: reset in mid-frame. -/
theorem test_reset_aborts :
    step { line .low false 0x01#8 0xFE#8 0 0x80#8 1 0 401 0 .none 0 with host := [⟨true, false, 0#4, 0#8⟩] } =
      .next (start []) := by rfl

/-- P6: the request one tick too early, at `S_1526000`, is lost. -/
theorem test_request_in_the_last_tick_is_lost :
    step (asks 0x100#12 (line .sgap false 0x01#8 0xFE#8 6 0x80#8 0 9 1 0 .none 0)) =
      .next (line .idle false 0x01#8 0xFE#8 6 0x80#8 0 9 1 0 .none 0) := by rfl

/-- The first step after reset runs the word that is placed: a request, and a frame by the request of its row. -/
theorem test_withFetchWord :
    step ((start []).withFetchWord 12 0x305) = .next (started 0x35#8 0x32#8 .none) ∧
    step ((start []).withFetchWord 52 0xA1234563532CD) = .next (started 0x35#8 0x32#8 .none) := ⟨rfl, rfl⟩

/-! Witnesses: concrete states and operands that meet the hypotheses of the obligations, clause by clause. -/

/-- The smallest legal durations (00_scope.md R8). -/
def smallest : Config := ⟨0#8, 0#8, 0#8, 0#8, 2, 1, 1, 1, 1, 1, 1, 2, 1⟩

/-- The largest legal durations (R8). -/
def largest : Config :=
  ⟨0xFF#8, 0xFF#8, 0xFF#8, 0xFF#8, 16383, 16382, 16383, 16383, 16383, 16383, 1048575, 16383, 1048575⟩

theorem witness_legal : tc1.legal ∧ smallest.legal ∧ largest.legal := by decide

theorem witness_machine_legal : Config.machine.legal := by decide

/-- For `DecodeOfEncodeIsTheInstruction`, `BytesOfAnInstructionDecodeToIt`. -/
theorem witness_wellFormed :
    (Instr.reserved 0x8#4 0xFF#8).wellFormed = true ∧ (Instr.aux21 (fields 0x5E#8 0xA1#8)).wellFormed = true := by
  decide

/-- For `EncodeOfDecodeIsTheWord`. -/
theorem witness_decodes :
    decode (.req12 0xFFF#12) = .ok (.reserved 0xF#4 0xFF#8) ∧
    decode (.frame52 0xA12345601FE01#52) = .ok (.powerOn (fields 0xFE#8 0x01#8)) := ⟨rfl, rfl⟩

/-- For the three clauses of `FrameWordsOutsideTheTableAreRejected`. -/
theorem witness_frame_words :
    (0xB12345601FE01#52).extractLsb' 48 4 ≠ 0b1010#4 ∧
    ((0xA12345600FE01#52).extractLsb' 48 4 = 0b1010#4 ∧
      (0xA12345600FE01#52).extractLsb' 16 8 ∉ romRows.map RomRow.code) ∧
    ((0xA12345661FE01#52).extractLsb' 48 4 = 0b1010#4 ∧
      (0xA12345661FE01#52).extractLsb' 16 8 ∈ romRows.map RomRow.code) := by decide

/-- For `EncodeIsABijection`. -/
theorem witness_pair : encodeByte 0xFE#8 0x35#8 = 0x32#8 := by decide

/-- For `SegmentIsItsBitsAndItsPause` and `ChunksSumToTheWait`. -/
theorem witness_segment_and_wait : (4 ≤ 8 ∧ 8 ≤ 8) ∧ 1 ≤ tc1.maxWait ∧ 1 ≤ 1 ∧ 1 ≤ 32766 := by decide

/-- `IDLE` after an operation (`S_1541001`), with a request on the ports. -/
def idle (w : BitVec 12) : State := asks w (line .idle false 0x35#8 0x32#8 6 0x80#8 0 9 1 0 .none 0)

/-- For the statements about a request in `IDLE`. -/
theorem witness_ready : Ready (start []) ∧ Ready (idle 0x305#12) := ⟨⟨by decide, rfl⟩, ⟨by decide, rfl⟩⟩

/-- The boundaries of the ranges in `LevelRequestsStartTheirCodeOrNothing` and of `Hits`. -/
theorem witness_levels :
    (3#8).toNat ≤ 3 ∧ ¬ (4#8).toNat ≤ 3 ∧ ¬ 1 ≤ (0#8).toNat ∧ (1 ≤ (1#8).toNat ∧ (5#8).toNat ≤ 5) ∧
    ¬ (6#8).toNat ≤ 5 ∧ (1#8).toNat ≤ 1 ∧ ¬ (2#8).toNat ≤ 1 := by decide

/-- For `ReservedRequestsChangeNothing`. -/
theorem witness_reserved_request :
    (idle 0x800#12).inputs.rst = false ∧ (idle 0x800#12).inputs.reqValid = true ∧
    8 ≤ (idle 0x800#12).inputs.reqOp.toNat ∧ 8 ≤ (idle 0xFFF#12).inputs.reqOp.toNat := by decide

/-- The last tick of the wait of a sequence (P3, `S_2526000`). -/
def lastWait : State := line .qgap false 0x01#8 0xFE#8 6 0x80#8 0 9 1 0 .start 0

/-- For the statements about the rows of the ROM: both kinds of tick in which one can be selected. -/
theorem witness_selectable : Selectable (start []) ∧ Selectable lastWait :=
  ⟨⟨by decide, .inl rfl⟩, ⟨by decide, .inr ⟨rfl, by decide, rfl⟩⟩⟩

/-- For `RowsAreReachedByTheirRequests`. -/
theorem witness_row : encode (.flame5 (fields 0x32#8 0xCD#8)) = .frame52 0xA1234563532CD#52 := by decide

/-- For `NoInstructionAltersARunningOperation`: a phase that is no wait of a sequence, and the three ways in one. -/
theorem witness_running :
    ((started 0x35#8 0x32#8 .none).st ≠ .idle ∧ (started 0x35#8 0x32#8 .none).st ≠ .qgap) ∧
    1#14 < { lastWait with tcnt := 2 }.tcnt ∧ { lastWait with rem := 637 }.rem ≠ 0#20 ∧
    encode (.pwrOn 0#8) = .req12 0x000#12 := by decide

/-- For `IllegalConfigurationsAreRefused`: for each constraint a configuration that breaks only that one. -/
theorem witness_illegal :
    { tc1 with t1 := 380 }.t1 ≤ tc1.t0 ∧ { tc1 with t0 := 0 }.t0 = 0 ∧ { tc1 with hdrBitPause := 0 }.hdrBitPause = 0 ∧
    { tc1 with hdrSegPause := 0 }.hdrSegPause = 0 ∧ { tc1 with bodyBitPause := 0 }.bodyBitPause = 0 ∧
    { tc1 with bodySegPause := 0 }.bodySegPause = 0 ∧ { tc1 with msgPause := 0 }.msgPause = 0 ∧
    { tc1 with maxWait := 0 }.maxWait = 0 ∧ { tc1 with seqWait := 0 }.seqWait = 0 ∧
    tc1.maxWait < { tc1 with t1 := 16384 }.t1 ∧ tc1.maxWait < { tc1 with hdrBitPause := 16384 }.hdrBitPause ∧
    tc1.maxWait < { tc1 with hdrSegPause := 16384 }.hdrSegPause ∧
    tc1.maxWait < { tc1 with bodyBitPause := 16384 }.bodyBitPause ∧
    tc1.maxWait < { tc1 with bodySegPause := 16384 }.bodySegPause ∧
    16383 < { tc1 with maxWait := 16384 }.maxWait ∧ 2 ^ 20 ≤ { tc1 with msgPause := 1048576 }.msgPause ∧
    2 ^ 20 ≤ { tc1 with seqWait := 1048576 }.seqWait := by decide

/-- For `EveryTickHasANextState`: the smallest and the largest durations meet its seventeen hypotheses. -/
theorem witness_durations : ∀ c ∈ [tc1, smallest, largest],
    c.t0 < c.t1 ∧ 1 ≤ c.t0 ∧ 1 ≤ c.hdrBitPause ∧ 1 ≤ c.hdrSegPause ∧ 1 ≤ c.bodyBitPause ∧ 1 ≤ c.bodySegPause ∧
    1 ≤ c.msgPause ∧ 1 ≤ c.maxWait ∧ 1 ≤ c.seqWait ∧ c.t1 ≤ c.maxWait ∧ c.hdrBitPause ≤ c.maxWait ∧
    c.hdrSegPause ≤ c.maxWait ∧ c.bodyBitPause ≤ c.maxWait ∧ c.bodySegPause ≤ c.maxWait ∧ c.maxWait ≤ 16383 ∧
    c.msgPause < 2 ^ 20 ∧ c.seqWait < 2 ^ 20 := by decide

/-- For `StepRunsTheDecodedRequest`. -/
theorem witness_request :
    (idle 0x305#12).inputs.rst = false ∧ (idle 0x305#12).inputs.reqValid = true ∧
    decode (.req12 ((idle 0x305#12).inputs.reqOp ++ (idle 0x305#12).inputs.reqVal)) = .ok (.setFlame 5#8) :=
  ⟨rfl, rfl, rfl⟩

/-- For `StepRunsThePlacedWord`: both formats. -/
theorem witness_placed :
    ((Instr.setFlame 5#8).wellFormed = true ∧ encode (.setFlame 5#8) = .req12 0x305#12) ∧
    ((Instr.powerOn (fields 0xFE#8 0x01#8)).wellFormed = true ∧
      encode (.powerOn (fields 0xFE#8 0x01#8)) = .frame52 0xA12345601FE01#52) := by decide

/-- For `ResetTickWritesTheResetState`: reset together with a request, in mid-operation. -/
theorem witness_reset :
    { lastWait with host := [⟨true, true, 3#4, 5#8⟩] }.inputs.rst = true ∧ lastWait.cfg.legal := by decide

/-- For the second clause of `UnacceptedRequestsLeaveNoTrace`: `IDLE` after reset and after an operation, and a host that
drives the other request inputs without a request. -/
theorem witness_quiet : ∀ s ∈ [start [], { idle 0x305#12 with host := [⟨false, false, 3#4, 5#8⟩] }],
    Ready s ∧ s.inputs.rst = false ∧ s.inputs.reqValid = false := by
  intro s hs
  simp only [List.mem_cons, List.not_mem_nil, or_false] at hs
  rcases hs with rfl | rfl <;> exact ⟨⟨by decide, rfl⟩, rfl, rfl⟩

/-- For `UnacceptedRequestsLeaveNoTrace`: a request outside `IDLE`, none in `IDLE`, and one together with reset. -/
theorem witness_unaccepted :
    (asks 0x303#12 lastWait).accepts = false ∧ (start []).accepts = false ∧
    (start [⟨true, true, 3#4, 5#8⟩]).accepts = false := by decide

/-- For `MissesLeaveNoTrace`: a level just outside each range, and a reserved operation. -/
theorem witness_misses : ∀ w ∈ [0x204#12, 0x300#12, 0x306#12, 0x404#12, 0x502#12, 0x800#12],
    (idle w).accepts = true ∧ (∀ c, ¬ Hits (idle w).inputs.reqOp (idle w).inputs.reqVal c) ∧
    (idle w).inputs.reqOp ≠ 0x6#4 ∧ (idle w).inputs.reqOp ≠ 0x7#4 := by
  intro w hw
  simp only [List.mem_cons, List.not_mem_nil, or_false] at hw
  rcases hw with rfl | rfl | rfl | rfl | rfl | rfl <;>
    exact ⟨rfl, fun c h => by simp [Hits, idle, asks, State.inputs, Inputs.ofWord] at h, by decide, by decide⟩

/-- For `TimerCountsThePhase`: the first and the last number of ticks, with requests that come meanwhile. -/
theorem witness_timer :
    (asks 0x303#12 (started 0x35#8 0x32#8 .none)).noReset ∧ (started 0x35#8 0x32#8 .none).st ≠ .idle ∧
    0 < (started 0x35#8 0x32#8 .none).tcnt.toNat ∧ 879 < (started 0x35#8 0x32#8 .none).tcnt.toNat :=
  ⟨by unfold State.noReset; decide, by decide, by decide, by decide⟩

/-- For the phase ends, `tcnt` at 1 and at 0. -/
theorem witness_phase_ends :
    PhaseEnds (line .high true 0x35#8 0x32#8 0 0xA0#8 3 0 1 0 .none 0) .high ∧
    PhaseEnds (line .low false 0x35#8 0x32#8 0 0xA0#8 1 0 0 0 .none 0) .low ∧
    PhaseEnds (line .low false 0x35#8 0x32#8 0 0x00#8 0 0 1 0 .none 0) .low ∧
    PhaseEnds (line .mgap false 0x35#8 0x32#8 6 0x80#8 0 8 1 1 .none 0) .mgap ∧
    PhaseEnds (line .mgap false 0x35#8 0x32#8 6 0x80#8 0 8 1 0 .none 0) .mgap ∧
    PhaseEnds { lastWait with rem := 1 } .qgap :=
  ⟨⟨by decide, rfl, rfl, by decide⟩, ⟨by decide, rfl, rfl, by decide⟩, ⟨by decide, rfl, rfl, by decide⟩,
   ⟨by decide, rfl, rfl, by decide⟩, ⟨by decide, rfl, rfl, by decide⟩, ⟨by decide, rfl, rfl, by decide⟩⟩

/-- For `SegmentPauseEndsInWhatFollows`: any segment, repetition and step of a sequence, and for each clause the values at
the ends of its range. -/
theorem witness_segment_pause (seg : BitVec 3) (rep : BitVec 4) (id : SeqId) (pc : BitVec 2) :
    PhaseEnds (line .sgap false 0x35#8 0x32#8 seg 0x00#8 0 rep 1 0 id pc) .sgap ∧
    (0, tc1.start0) ∈ [(0, tc1.start0), (1, tc1.start1), (2, tc1.start2), (3, 0x35#8), (4, 0x32#8), (5, ~~~0x32#8)] ∧
    (5, ~~~0x32#8) ∈ [(0, tc1.start0), (1, tc1.start1), (2, tc1.start2), (3, 0x35#8), (4, 0x32#8), (5, ~~~0x32#8)] ∧
    6 ≤ (6#3).toNat ∧ (8#4).toNat < 9 ∧ 9 ≤ (9#4).toNat ∧ (1#2).toNat < 2 ∧ 2 ≤ (2#2).toNat ∧ (0#2).toNat < 1 ∧
    1 ≤ (1#2).toNat :=
  ⟨⟨witness_legal.1, rfl, rfl, BitVec.le_refl 1#14⟩, by decide⟩

/-- For `SequenceWaitEndsInTheNextStep`: the three waits there are. -/
theorem witness_waits :
    (PhaseEnds lastWait .qgap ∧ lastWait.rem = 0#20 ∧ lastWait.seqid = .start ∧ lastWait.seqpc = 0#2) ∧
    PhaseEnds { lastWait with seqpc := 1 } .qgap ∧ PhaseEnds { lastWait with seqid := .stop } .qgap :=
  ⟨⟨⟨by decide, rfl, rfl, by decide⟩, rfl, rfl, rfl⟩, ⟨by decide, rfl, rfl, by decide⟩, ⟨by decide, rfl, rfl, by decide⟩⟩

/-- For `LongWaitsLoadTheirChunks` and `LongWaitsLastTheirTicks`. -/
theorem witness_long_wait :
    lastWait.noReset ∧ (lastWait.st = .mgap ∨ lastWait.st = .qgap) ∧ 1 ≤ 1 ∧ 1048575 < 2 ^ 20 :=
  ⟨by unfold State.noReset; decide, by decide, by decide, by decide⟩

/-- The invariants hold in a state of each phase. -/
theorem witness_inv : ∀ s ∈ [start [], started 0x35#8 0x32#8 .none,
      line .low false 0x35#8 0x32#8 0 0xA0#8 3 0 420 0 .none 0, line .sgap false 0x35#8 0x32#8 0 0x00#8 0 0 830 0 .none 0,
      line .mgap false 0x35#8 0x32#8 6 0x80#8 0 8 16383 74517 .none 0, lastWait], s.Inv := by
  intro s hs
  simp only [List.mem_cons, List.not_mem_nil, or_false] at hs
  rcases hs with rfl | rfl | rfl | rfl | rfl | rfl <;> constructor <;> decide

/-- For `EveryTickKeepsTheInvariants` and `TheConfigurationNeverChanges`. -/
theorem witness_next : (∃ t, step lastWait = .next t) ∧ ∃ i t, exec i lastWait = .next t :=
  ⟨⟨_, rfl⟩, .fan0 (fields 0x3D#8 0xC2#8), _, rfl⟩

/-- For `PhasesShowTheirOutputs`. -/
theorem witness_no_reset_now : lastWait.inputs.rst = false ∧ (start []).inputs.rst = false := by decide

/-- For `DeadRegistersNeverShow`: two states that differ in every dead register. -/
theorem witness_dead :
    (start [Inputs.ofWord 0x305#12]).st = .idle ∧ (idle 0x305#12).st = .idle ∧
    (start [Inputs.ofWord 0x305#12]).rfOut = (idle 0x305#12).rfOut ∧
    (start [Inputs.ofWord 0x305#12]).cfg = (idle 0x305#12).cfg ∧
    (start [Inputs.ofWord 0x305#12]).host = (idle 0x305#12).host := ⟨rfl, rfl, rfl, rfl, rfl⟩

/-- For the three waveform statements. -/
theorem witness_presents :
    Presents (idle 0x305#12) 0x3#4 5#8 ∧ Presents (idle 0x600#12) 0x6#4 0#8 ∧ Presents (idle 0x700#12) 0x7#4 0#8 :=
  ⟨⟨by unfold State.noReset; decide, rfl, rfl, rfl⟩, ⟨by unfold State.noReset; decide, rfl, rfl, rfl⟩,
   ⟨by unfold State.noReset; decide, rfl, rfl, rfl⟩⟩

/-- Every family of `Hits`, at the ends of its range. -/
theorem witness_hits :
    Hits 0x0#4 0xFF#8 0x01#8 ∧ Hits 0x1#4 0x00#8 0x02#8 ∧ Hits 0x2#4 0#8 0x40#8 ∧ Hits 0x2#4 3#8 0x43#8 ∧
    Hits 0x3#4 1#8 0x31#8 ∧ Hits 0x3#4 5#8 0x35#8 ∧ Hits 0x4#4 0#8 0x50#8 ∧ Hits 0x4#4 3#8 0x53#8 ∧
    Hits 0x5#4 0#8 0x60#8 ∧ Hits 0x5#4 1#8 0x61#8 := by
  simp [Hits]

end Sys2Proof.Tests
end

/-! PROOF. The scope of the model (00_scope.md R8): every instruction and every tick is guarded by the legality of the
configuration, and the reset state lies inside that scope. -/

namespace Sys2Proof.Machine

variable {s : State}

/-- Every arm of `exec` is a guarded operation: it unfolds to a request, to the selection of a row of the ROM, or to the
reserved operation, and each of the three is guarded. -/
theorem exec_guarded (i : Instr) : ∃ f, ∀ s, exec i s = s.guarded f := by
  cases i <;> exact ⟨_, fun _ => rfl⟩

theorem exec_legal (i : Instr) (hl : s.cfg.legal) : ∃ t, exec i s = .next t := by
  obtain ⟨f, hf⟩ := exec_guarded i
  exact ⟨f s, (hf s).trans (guarded_legal hl)⟩

theorem exec_illegal (i : Instr) (hl : ¬ s.cfg.legal) : exec i s = .refused .illegalConfiguration := by
  obtain ⟨f, hf⟩ := exec_guarded i
  exact (hf s).trans (guarded_illegal hl)

/-- The four kinds of tick (R180) all answer; the tick that runs a request does so because `exec` does. -/
theorem step_legal (hl : s.cfg.legal) : ∃ t, step s = .next t := by
  cases hr : s.inputs.rst with
  | true => exact ⟨_, step_reset hl hr⟩
  | false =>
    by_cases hi : s.st = .idle
    · cases hv : s.inputs.reqValid with
      | true =>
        rw [step_request hl hr hi hv]
        exact exec_legal s.fetched hl
      | false => exact ⟨_, step_quiet hl hr hi hv⟩
    · exact ⟨_, step_busy hl hr hi⟩

/-- The reset registers meet R43 under any configuration and host. -/
theorem resetWith_inv (cfg : Config) (host : List Inputs) : (State.resetWith cfg host).Inv where
  pin := ⟨nofun, nofun⟩
  timer hbusy := absurd rfl hbusy
  segment := Nat.zero_le 6
  repeats := Nat.zero_le 9
  headerBit _ := Nat.zero_le 3
  seqNone _ := rfl
  seqStart := nofun
  seqStop := nofun
  idleSeq _ := rfl
  qgapSeq := nofun
  rest hrem := absurd hrem (Nat.lt_irrefl 0)
  encoded hbusy := absurd rfl hbusy
  mgapRep := nofun
  qgapStep := nofun

/-- The default durations of R6 keep R8, whatever the calibration bytes. -/
theorem withDefaultTiming_legal (k start0 start1 start2 : Byte) :
    (Config.withDefaultTiming k start0 start1 start2).legal := by
  simp [Config.legal, Config.withDefaultTiming]

/-- Settles O31: `step` and every arm of `exec` test the same legality, and each disjunct breaks one clause of it. -/
theorem illegalConfigurationsAreRefused : Obligations.IllegalConfigurationsAreRefused := by
  intro s i hbroken
  have hl : ¬ s.cfg.legal := by
    rintro ⟨hlt, hpos, hcap, hmax, hwide⟩
    rcases hbroken with hle | hzero | habove | hover | hmsg | hseq
    · exact absurd hlt (Nat.not_lt.mpr hle)
    · omega
    · omega
    · exact absurd hmax (Nat.not_le.mpr hover)
    · exact absurd hwide.left (Nat.not_lt.mpr hmsg)
    · exact absurd hwide.right (Nat.not_lt.mpr hseq)
  exact ⟨step_illegal hl, exec_illegal i hl⟩

/-- Settles O32: the seventeen bounds are `Config.legal`, under which no tick and no instruction is refused. -/
theorem everyTickHasANextState : Obligations.EveryTickHasANextState := by
  intro s i hlt ht0 hhb hhs hbb hbs hmsg hmax hseq ct1 chb chs cbb cbs cmax wmsg wseq
  have hl : s.cfg.legal :=
    ⟨hlt, ⟨ht0, hhb, hhs, hbb, hbs, hmsg, hmax, hseq⟩, ⟨ct1, chb, chs, cbb, cbs⟩, cmax, wmsg, wseq⟩
  exact ⟨step_legal hl, exec_legal i hl⟩

/-- Settles O47: the reset state is `resetWith` under the default durations. -/
theorem resetIsSafe : Obligations.ResetIsSafe where
  legal := withDefaultTiming_legal _ _ _ _
  inv := resetWith_inv _ _

end Sys2Proof.Machine

/-! PROOF. Every tick and every instruction keeps the invariants of the reachable states (10_state.md R43). The clauses
of `State.Inv` are sorted by phase: for each phase one lemma says what has to hold on entering it, and each operation of
Part B then enters its phase. -/

namespace Sys2Proof.Machine

variable {s t : State} {v c : Byte} {d : Nat}

/-! The end of each phase, by its name. -/

theorem phaseEnd_idle (hst : s.st = .idle) : phaseEnd s = s := by simp only [phaseEnd, hst]
theorem phaseEnd_high (hst : s.st = .high) : phaseEnd s = endHigh s := by simp only [phaseEnd, hst]
theorem phaseEnd_low (hst : s.st = .low) : phaseEnd s = endLow s := by simp only [phaseEnd, hst]
theorem phaseEnd_sgap (hst : s.st = .sgap) : phaseEnd s = endSgap s := by simp only [phaseEnd, hst]
theorem phaseEnd_mgap (hst : s.st = .mgap) : phaseEnd s = endMgap s := by simp only [phaseEnd, hst]
theorem phaseEnd_qgap (hst : s.st = .qgap) : phaseEnd s = endQgap s := by simp only [phaseEnd, hst]

/-- The clauses of `State.Inv` that speak of no phase; the three on the step of a sequence are one bound. -/
structure State.Ranges (s : State) : Prop where
  segment   : s.seg.toNat ≤ 6
  repeats   : s.rep.toNat ≤ 9
  headerBit : s.seg = 0#3 → s.nbit.toNat ≤ 3
  seqStep   : s.seqpc.toNat ≤ s.seqid.last

/-- The timer holds a wait that a phase can have (R43). -/
def State.Timed (s : State) : Prop :=
  1 ≤ s.tcnt.toNat ∧ s.tcnt.toNat ≤ s.cfg.maxWait

/-- `enc` holds the encoded command (R43). -/
def State.Encoded (s : State) : Prop :=
  s.enc = encodeByte s.cfg.k s.cmd

/-! What the invariants say, taken apart. -/

theorem State.Inv.ranges (h : s.Inv) : s.Ranges where
  segment := h.segment
  repeats := h.repeats
  headerBit := h.headerBit
  seqStep := by
    cases hid : s.seqid with
    | none => simp [h.seqNone hid]
    | start => exact h.seqStart hid
    | stop => exact h.seqStop hid

theorem State.Inv.rem_eq_zero (h : s.Inv) (hm : s.st ≠ .mgap) (hq : s.st ≠ .qgap) : s.rem = 0#20 := by
  by_contra hrem
  exact (h.rest (by bv_omega)).elim hm hq

theorem State.Inv.rfOut_eq_false (h : s.Inv) (hh : s.st ≠ .high) : s.rfOut = false := by
  rw [← Bool.not_eq_true, h.pin]
  exact hh

/-- In the phases of a frame the command is encoded and no long wait is owed. -/
theorem State.Inv.frame (h : s.Inv) (hst : s.st = .high ∨ s.st = .low ∨ s.st = .sgap) :
    s.Encoded ∧ s.rem = 0#20 := by
  rcases hst with hst | hst | hst <;>
    exact ⟨h.encoded (by simp [hst]) (by simp [hst]), h.rem_eq_zero (by simp [hst]) (by simp [hst])⟩

/-! The invariants put together: first for any phase, then what each phase asks for. -/

/-- The wait of a sequence has a sequence, because a step of it is left; so `qgapSeq` is no premise. -/
theorem State.Ranges.inv (hr : s.Ranges) (pin : s.rfOut = true ↔ s.st = .high) (timer : s.st ≠ .idle → s.Timed)
    (idleSeq : s.st = .idle → s.seqid = .none) (rest : 0 < s.rem.toNat → s.st = .mgap ∨ s.st = .qgap)
    (encoded : s.st ≠ .idle → s.st ≠ .qgap → s.Encoded) (mgapRep : s.st = .mgap → s.rep.toNat ≤ 8)
    (qgapStep : s.st = .qgap → s.seqpc.toNat < s.seqid.last) : s.Inv where
  pin := pin
  timer := timer
  segment := hr.segment
  repeats := hr.repeats
  headerBit := hr.headerBit
  seqNone hid := by
    have hle := hr.seqStep
    rw [hid, SeqId.last] at hle
    bv_omega
  seqStart hid := by simpa only [hid, SeqId.last] using hr.seqStep
  seqStop hid := by simpa only [hid, SeqId.last] using hr.seqStep
  idleSeq := idleSeq
  qgapSeq hq hid := by
    have hlt := qgapStep hq
    rw [hid, SeqId.last] at hlt
    exact Nat.not_lt_zero _ hlt
  rest := rest
  encoded := encoded
  mgapRep := mgapRep
  qgapStep := qgapStep

theorem State.Ranges.inv_idle (hr : s.Ranges) (hst : s.st = .idle) (hpin : s.rfOut = false) (hid : s.seqid = .none)
    (hrem : s.rem = 0#20) : s.Inv := by
  apply hr.inv <;> simp [hst, hpin, hid, hrem]

theorem State.Ranges.inv_high (hr : s.Ranges) (hst : s.st = .high) (hpin : s.rfOut = true) (ht : s.Timed)
    (he : s.Encoded) (hrem : s.rem = 0#20) : s.Inv := by
  apply hr.inv <;> simp [hst, hpin, ht, he, hrem]

/-- The pause after a bit and the pause after a segment ask for the same. -/
theorem State.Ranges.inv_pause (hr : s.Ranges) (hst : s.st = .low ∨ s.st = .sgap) (hpin : s.rfOut = false)
    (ht : s.Timed) (he : s.Encoded) (hrem : s.rem = 0#20) : s.Inv := by
  rcases hst with hst | hst <;> apply hr.inv <;> simp [hst, hpin, ht, he, hrem]

theorem State.Ranges.inv_mgap (hr : s.Ranges) (hst : s.st = .mgap) (hpin : s.rfOut = false) (ht : s.Timed)
    (he : s.Encoded) (hrep : s.rep.toNat ≤ 8) : s.Inv := by
  apply hr.inv <;> simp [hst, hpin, ht, he, hrep]

theorem State.Ranges.inv_qgap (hr : s.Ranges) (hst : s.st = .qgap) (hpin : s.rfOut = false) (ht : s.Timed)
    (hstep : s.seqpc.toNat < s.seqid.last) : s.Inv := by
  apply hr.inv <;> simp [hst, hpin, ht, hstep]

/-! Loads of the timer under a legal configuration. -/

theorem ticks_bounds {cfg : Config} (hl : cfg.legal) (h1 : 1 ≤ d) (hd : d ≤ cfg.maxWait) :
    1 ≤ (ticks d).toNat ∧ (ticks d).toNat ≤ cfg.maxWait := by
  obtain ⟨-, -, -, hmax, -⟩ := hl
  rw [ticks_toNat (hd.trans hmax)]
  exact ⟨h1, hd⟩

theorem ticks_highTime_bounds {cfg : Config} (hl : cfg.legal) (b : Bool) :
    1 ≤ (ticks (highTime cfg b)).toNat ∧ (ticks (highTime cfg b)).toNat ≤ cfg.maxWait := by
  have ⟨hlt, ⟨h0, _⟩, ⟨h1, _⟩, _⟩ := hl
  cases b
  · exact ticks_bounds hl h0 (hlt.le.trans h1)
  · exact ticks_bounds hl (h0.trans hlt.le) h1

theorem ticks_bitPause_bounds {cfg : Config} (hl : cfg.legal) (i : BitVec 3) :
    1 ≤ (ticks (bitPause cfg i)).toNat ∧ (ticks (bitPause cfg i)).toNat ≤ cfg.maxWait := by
  have ⟨_, ⟨_, hh, _, hb, _⟩, ⟨_, hh', _, hb', _⟩, _⟩ := hl
  unfold bitPause
  split
  · exact ticks_bounds hl hh hh'
  · exact ticks_bounds hl hb hb'

theorem ticks_segPause_bounds {cfg : Config} (hl : cfg.legal) (i : BitVec 3) :
    1 ≤ (ticks (segPause cfg i)).toNat ∧ (ticks (segPause cfg i)).toNat ≤ cfg.maxWait := by
  have ⟨_, ⟨_, _, hh, _, hb, _⟩, ⟨_, _, hh', _, hb'⟩, _⟩ := hl
  unfold segPause
  split
  · exact ticks_bounds hl hh hh'
  · exact ticks_bounds hl hb hb'

theorem loadWait_timed (hl : s.cfg.legal) (h1 : 1 ≤ d) : (loadWait d s).Timed := by
  have ⟨_, ⟨_, _, _, _, _, _, hm, _⟩, _⟩ := hl
  rcases Nat.lt_or_ge s.cfg.maxWait d with h | h
  · rw [loadWait_long h]
    exact ticks_bounds hl hm le_rfl
  · rw [loadWait_short h]
    exact ticks_bounds hl h1 h

theorem loadWait_ranges (hr : s.Ranges) : (loadWait d s).Ranges := by
  unfold loadWait
  split <;> exact { hr with }

/-! The operations. -/

/-- Only the host's list moves on. -/
theorem State.Inv.advance (h : s.Inv) : s.advance.Inv :=
  { h with }

theorem startBit_inv (hl : s.cfg.legal) (hr : s.Ranges) (he : s.Encoded) (hrem : s.rem = 0#20) :
    (startBit v s).Inv :=
  State.Ranges.inv_high { hr with } rfl rfl (ticks_highTime_bounds hl _) he hrem

theorem startTx_inv (hl : s.cfg.legal) (hseq : s.seqpc.toNat ≤ s.seqid.last) (hrem : s.rem = 0#20) :
    (startTx c s).Inv :=
  startBit_inv hl ⟨Nat.zero_le 6, Nat.zero_le 9, fun _ => le_rfl, hseq⟩ rfl hrem

theorem dispatch_inv (op : BitVec 4) (v : Byte) (hl : s.cfg.legal) (h : s.Inv) (hi : s.st = .idle) :
    (dispatch op v s).Inv := by
  obtain heq | ⟨c, id, -, heq⟩ := dispatch_cases op v s
  · rw [heq]
    exact h
  · rw [heq]
    exact startTx_inv hl (Nat.zero_le _) (h.rem_eq_zero (by simp [hi]) (by simp [hi]))

/-- A selected row finds nothing left of a long wait, in `IDLE` by R43 and in `QGAP` by R72. -/
theorem State.Inv.rem_of_canStart (h : s.Inv) (hs : s.canStart = true) : s.rem = 0#20 := by
  obtain hi | ⟨-, -, hrem⟩ := canStart_iff.1 hs
  · exact h.rem_eq_zero (by simp [hi]) (by simp [hi])
  · exact hrem

theorem exec_inv {i : Instr} (h : s.Inv) (hx : exec i s = .next t) : t.Inv := by
  obtain ⟨hl, rfl | ⟨op, v, hi, rfl⟩ | ⟨a, c, hs, -, rfl⟩⟩ := exec_cases hx
  · exact h
  · exact dispatch_inv op v hl h hi
  · exact startTx_inv hl h.ranges.seqStep (h.rem_of_canStart hs)

/-! The ends of the phases. -/

theorem endHigh_inv (hl : s.cfg.legal) (h : s.Inv) (hst : s.st = .high) : (endHigh s).Inv := by
  obtain ⟨he, hrem⟩ := h.frame (.inl hst)
  exact State.Ranges.inv_pause { h.ranges with } (.inl rfl) rfl (ticks_bitPause_bounds hl _) he hrem

theorem endLow_inv (hl : s.cfg.legal) (h : s.Inv) (hst : s.st = .low) : (endLow s).Inv := by
  have hr := h.ranges
  obtain ⟨he, hrem⟩ := h.frame (.inr (.inl hst))
  unfold endLow
  split
  case isTrue hbits =>
    have hnbit : s.seg = 0#3 → (s.nbit - 1#3).toNat ≤ 3 := by
      intro hseg
      have := hr.headerBit hseg
      bv_omega
    exact startBit_inv hl { hr with headerBit := hnbit } he hrem
  case isFalse =>
    exact State.Ranges.inv_pause { hr with } (.inr rfl) (h.rfOut_eq_false (by simp [hst]))
      (ticks_segPause_bounds hl _) he hrem

/-- After the last frame: the wait of a sequence with a step left, or `IDLE` (R191). -/
theorem txDone_inv (hl : s.cfg.legal) (hr : s.Ranges) (hpin : s.rfOut = false) (hrem : s.rem = 0#20) :
    (txDone s.seqid s.seqpc.toNat s).Inv := by
  have ⟨_, ⟨_, _, _, _, _, _, _, hwait⟩, _⟩ := hl
  by_cases hmore : s.seqid ≠ .none ∧ s.seqpc.toNat < s.seqid.last
  · obtain ⟨hid, hlt⟩ := hmore
    rw [txDone_more hid hlt, BitVec.ofNat_toNat, BitVec.setWidth_eq]
    exact State.Ranges.inv_qgap (loadWait_ranges { hr with }) (by simp) (by simpa using hpin)
      (loadWait_timed hl hwait) (by simpa using hlt)
  · rw [txDone, if_neg hmore]
    exact State.Ranges.inv_idle { hr with seqStep := Nat.zero_le _ } rfl hpin rfl hrem

theorem endSgap_inv (hl : s.cfg.legal) (h : s.Inv) (hst : s.st = .sgap) : (endSgap s).Inv := by
  have hr := h.ranges
  obtain ⟨he, hrem⟩ := h.frame (.inr (.inr hst))
  have hpin : s.rfOut = false := h.rfOut_eq_false (by simp [hst])
  have ⟨_, ⟨_, _, _, _, _, hmsg, _⟩, _⟩ := hl
  unfold endSgap
  split
  case isTrue hseg =>
    have hnext : (s.seg + 1#3).toNat ≤ 6 := by bv_omega
    have hbody : s.seg + 1#3 ≠ 0#3 := by bv_omega
    exact startBit_inv hl { hr with segment := hnext, headerBit := fun h0 => absurd h0 hbody } he hrem
  case isFalse =>
    split
    case isTrue hrep =>
      exact State.Ranges.inv_mgap (loadWait_ranges { hr with }) (by simp) (by simpa using hpin)
        (loadWait_timed hl hmsg) (by simpa [State.Encoded] using he) (by simp; bv_omega)
    case isFalse => exact txDone_inv hl hr hpin hrem

theorem endMgap_inv (hl : s.cfg.legal) (h : s.Inv) (hst : s.st = .mgap) : (endMgap s).Inv := by
  have hr := h.ranges
  have he : s.Encoded := h.encoded (by simp [hst]) (by simp [hst])
  have hrep : s.rep.toNat ≤ 8 := h.mgapRep hst
  unfold endMgap
  split
  case isTrue hrem =>
    exact State.Ranges.inv_mgap (loadWait_ranges hr) (by simpa using hst)
      (by simpa using h.rfOut_eq_false (by simp [hst])) (loadWait_timed hl (by bv_omega))
      (by simpa [State.Encoded] using he) (by simpa using hrep)
  case isFalse hrem =>
    have hnext : (s.rep + 1#4).toNat ≤ 9 := by bv_omega
    have hrem0 : s.rem = 0#20 := by bv_omega
    exact startBit_inv hl ⟨Nat.zero_le 6, hnext, fun _ => le_rfl, hr.seqStep⟩ he hrem0

/-- Every step up to the last one of a sequence has its command (R193). -/
theorem seqLookup_hits {id : SeqId} {pc : Nat} (hid : id ≠ .none) (hpc : pc ≤ id.last) :
    ∃ c, seqLookup id pc = some c := by
  obtain ⟨h0, h1, h2, h0', h1'⟩ := seqLookup_steps
  cases id with
  | none => exact absurd rfl hid
  | start =>
    match pc, hpc with
    | 0, _ => exact ⟨_, h0⟩
    | 1, _ => exact ⟨_, h1⟩
    | 2, _ => exact ⟨_, h2⟩
  | stop =>
    match pc, hpc with
    | 0, _ => exact ⟨_, h0'⟩
    | 1, _ => exact ⟨_, h1'⟩

theorem endQgap_inv (hl : s.cfg.legal) (h : s.Inv) (hst : s.st = .qgap) : (endQgap s).Inv := by
  have hstep : s.seqpc.toNat < s.seqid.last := h.qgapStep hst
  unfold endQgap
  split
  case isTrue hrem =>
    exact State.Ranges.inv_qgap (loadWait_ranges h.ranges) (by simpa using hst)
      (by simpa using h.rfOut_eq_false (by simp [hst])) (loadWait_timed hl (by bv_omega)) (by simpa using hstep)
  case isFalse hrem =>
    obtain ⟨c, hc⟩ := seqLookup_hits (h.qgapSeq hst) hstep
    rw [seqStep_hit hc]
    exact startTx_inv hl ((Nat.mod_le _ _).trans hstep) (by bv_omega)

theorem phaseEnd_inv (hl : s.cfg.legal) (h : s.Inv) : (phaseEnd s).Inv := by
  cases hst : s.st with
  | idle => rwa [phaseEnd_idle hst]
  | high =>
    rw [phaseEnd_high hst]
    exact endHigh_inv hl h hst
  | low =>
    rw [phaseEnd_low hst]
    exact endLow_inv hl h hst
  | sgap =>
    rw [phaseEnd_sgap hst]
    exact endSgap_inv hl h hst
  | mgap =>
    rw [phaseEnd_mgap hst]
    exact endMgap_inv hl h hst
  | qgap =>
    rw [phaseEnd_qgap hst]
    exact endQgap_inv hl h hst

theorem timerTick_inv (hl : s.cfg.legal) (h : s.Inv) : (timerTick s).Inv := by
  by_cases hlast : s.tcnt ≤ 1#14
  · rw [timerTick_ends hlast]
    exact phaseEnd_inv hl h
  · rw [timerTick_counts (by simpa using hlast)]
    have htimer : s.st ≠ .idle → 1 ≤ (s.tcnt - 1#14).toNat ∧ (s.tcnt - 1#14).toNat ≤ s.cfg.maxWait := by
      intro hbusy
      have := h.timer hbusy
      constructor <;> bv_omega
    exact { h with timer := htimer }

theorem step_inv (h : s.Inv) (hs : step s = .next t) : t.Inv := by
  obtain ⟨hl, ⟨-, rfl⟩ | ⟨-, -, -, hx⟩ | ⟨-, -, -, rfl⟩ | ⟨-, -, rfl⟩⟩ := step_cases hs
  · exact resetWith_inv _ _
  · exact exec_inv h.advance hx
  · exact h.advance
  · exact timerTick_inv hl h.advance

/-- Settles O48: a tick is one of the four kinds of R180, and an instruction dispatches a request or selects a row. -/
theorem everyTickKeepsTheInvariants : Obligations.EveryTickKeepsTheInvariants := by
  rintro s t h (hs | ⟨i, hx⟩)
  · exact step_inv h hs
  · exact exec_inv h hx

end Sys2Proof.Machine

/-! PROOF. What earlier operations left in the dead registers never shows (10_state.md R41). `State.live` puts a fixed
value in every dead register. The live part of the state after a tick depends on the live part of the state before it,
and so do the outputs. -/

namespace Sys2Proof.Machine

variable {s t u : State}

/-- The state with its dead registers at their reset values: in `IDLE` every register but the pin, in a frame `rem`,
which `LoadWait` writes before the next long wait reads it. -/
def State.live (s : State) : State :=
  match s.st with
  | .idle => { State.resetWith s.cfg s.host with rfOut := s.rfOut }
  | .high | .low | .sgap => { s with rem := 0#20 }
  | .mgap | .qgap => s

/-! The dead registers in each phase. -/

theorem live_idle (hst : s.st = .idle) : s.live = { State.resetWith s.cfg s.host with rfOut := s.rfOut } := by
  simp only [State.live, hst]

theorem live_frame (hst : s.st = .high ∨ s.st = .low ∨ s.st = .sgap) : s.live = { s with rem := 0#20 } := by
  rcases hst with hst | hst | hst <;> simp only [State.live, hst]

theorem live_wait (hst : s.st = .mgap ∨ s.st = .qgap) : s.live = s := by
  rcases hst with hst | hst <;> simp only [State.live, hst]

/-- In the phases of a frame `rem` does not count. -/
theorem live_rem (r : BitVec 20) (hst : s.st = .high ∨ s.st = .low ∨ s.st = .sgap) :
    ({ s with rem := r } : State).live = s.live := by
  rw [live_frame hst, live_frame (s := { s with rem := r }) hst]

@[simp] theorem live_st (s : State) : s.live.st = s.st := by
  unfold State.live; split <;> simp_all [State.resetWith]
@[simp] theorem live_rfOut (s : State) : s.live.rfOut = s.rfOut := by
  unfold State.live; split <;> rfl
@[simp] theorem live_cfg (s : State) : s.live.cfg = s.cfg := by
  unfold State.live; split <;> rfl
@[simp] theorem live_host (s : State) : s.live.host = s.host := by
  unfold State.live; split <;> rfl

/-- The host sees live registers only. -/
theorem live_outputs (s : State) : s.live.outputs = s.outputs := by
  simp only [State.outputs, State.reqReady, State.busy, State.irqInhibit, State.inputs, live_st, live_rfOut, live_host]

/-- A dead register stays dead. -/
theorem live_live (s : State) : s.live.live = s.live := by
  unfold State.live; cases h : s.st <;> simp [h, State.resetWith]

theorem live_advance (s : State) : s.advance.live = s.live.advance := by
  unfold State.live; cases h : s.st <;> simp [h, State.advance, State.resetWith]

/-! A request (R181). -/

/-- A dispatched request does the same in every state: nothing, or the first tick of a transmission. -/
theorem dispatch_uniform (op : BitVec 4) (v : Byte) :
    (∀ s, dispatch op v s = s) ∨
      ∃ c id, ∀ s, dispatch op v s = startTx c { s with seqid := id, seqpc := 0#2 } := by
  rcases Nat.lt_or_ge 5 op.toNat with h5 | h5
  · by_cases h6 : op = 0x6#4
    · exact .inr ⟨_, _, fun s => h6 ▸ dispatch_start v⟩
    · by_cases h7 : op = 0x7#4
      · exact .inr ⟨_, _, fun s => h7 ▸ dispatch_stop v⟩
      · exact .inl fun s => dispatch_reserved (by bv_omega)
  · cases hm : romLookup op v with
    | none => exact .inl fun s => dispatch_miss h5 hm
    | some c => exact .inr ⟨c, .none, fun s => dispatch_hit hm⟩

/-- The first tick of a transmission writes every register that a frame reads. -/
theorem live_dispatch (op : BitVec 4) (v : Byte) (hst : s.st = .idle) :
    (dispatch op v s.live).live = (dispatch op v s).live := by
  obtain hmiss | ⟨c, id, hhit⟩ := dispatch_uniform op v
  · rw [hmiss, hmiss, live_live]
  · rw [hhit, hhit, live_idle hst, startTx_eq, startTx_eq, live_frame (.inl rfl), live_frame (.inl rfl)]
    rfl

/-- Every operation number decodes to an instruction that does what R181 says. -/
theorem exec_decodeReq (op : BitVec 4) (v : Byte) (s : State) : exec (decodeReq (reqWord op v)) s = request op v s := by
  by_cases h8 : 8 ≤ op.toNat
  · rw [decodeReq_reserved op v h8, exec_reserved, request]
    simp only [dispatch_reserved h8, ite_self]
  · have hop : op = 0x0#4 ∨ op = 0x1#4 ∨ op = 0x2#4 ∨ op = 0x3#4 ∨ op = 0x4#4 ∨ op = 0x5#4 ∨ op = 0x6#4 ∨
        op = 0x7#4 := by bv_omega
    rcases hop with rfl | rfl | rfl | rfl | rfl | rfl | rfl | rfl <;> simp

/-- The tick that accepts a request (R180, R181). -/
theorem step_dispatch (hl : s.cfg.legal) (hr : s.inputs.rst = false) (hi : s.st = .idle)
    (hv : s.inputs.reqValid = true) : step s = .next (dispatch s.inputs.reqOp s.inputs.reqVal s.advance) := by
  rw [step_request hl hr hi hv, State.fetched, Inputs.word, exec_decodeReq]
  exact request_idle (s := s.advance) _ _ hl hi

/-! The timer (R185 to R192). -/

theorem loadWait_rem (d : Nat) (r : BitVec 20) (s : State) : loadWait d { s with rem := r } = loadWait d s := by
  unfold loadWait
  split <;> rfl

theorem live_txDone (id : SeqId) (pc : Nat) (r : BitVec 20) (s : State) :
    (txDone id pc { s with rem := r }).live = (txDone id pc s).live := by
  unfold txDone
  split
  · rw [← loadWait_rem _ r { s with st := .qgap, seqid := id, seqpc := BitVec.ofNat 2 pc }]
  · rfl

/-- A phase of a frame ends in another one, where `rem` is dead, or in a long wait, which loads it, or in `IDLE`. -/
theorem live_phaseEnd (r : BitVec 20) (hst : s.st = .high ∨ s.st = .low ∨ s.st = .sgap) :
    (phaseEnd { s with rem := r }).live = (phaseEnd s).live := by
  rcases hst with hst | hst | hst
  · rw [phaseEnd_high hst, phaseEnd_high (s := { s with rem := r }) hst]
    rfl
  · rw [phaseEnd_low hst, phaseEnd_low (s := { s with rem := r }) hst]
    unfold endLow
    split <;> rfl
  · rw [phaseEnd_sgap hst, phaseEnd_sgap (s := { s with rem := r }) hst]
    unfold endSgap
    split
    · rfl
    · split
      · rw [← loadWait_rem _ r { s with st := .mgap }]
      · exact live_txDone _ _ r s

theorem live_timerTick (hbusy : s.st ≠ .idle) : (timerTick s.live).live = (timerTick s).live := by
  have hphase : (s.st = .high ∨ s.st = .low ∨ s.st = .sgap) ∨ s.st = .mgap ∨ s.st = .qgap := by
    cases hst : s.st <;> simp_all
  obtain hframe | hwait := hphase
  · rw [live_frame hframe]
    by_cases hlast : s.tcnt ≤ 1#14
    · rw [timerTick_ends hlast, timerTick_ends (s := { s with rem := 0#20 }) hlast, live_phaseEnd _ hframe]
    · have hcount : 1#14 < s.tcnt := by simpa using hlast
      rw [timerTick_counts hcount, timerTick_counts (s := { s with rem := 0#20 }) hcount]
      exact live_rem (s := { s with tcnt := s.tcnt - 1#14 }) 0#20 hframe
  · rw [live_wait hwait]

/-! A tick, and a run. -/

/-- Two states that differ in dead registers only show the same inputs. -/
theorem inputs_eq_of_live_eq (h : s.live = t.live) : s.inputs = t.inputs := by
  rw [State.inputs, ← live_host s, h, live_host, State.inputs]

/-- Two states that differ in dead registers only have next states that differ in dead registers only. -/
theorem step_live (h : s.live = t.live) (hs : step s = .next u) : ∃ w, step t = .next w ∧ u.live = w.live := by
  have hcfg : s.cfg = t.cfg := by rw [← live_cfg s, h, live_cfg]
  have hst : s.st = t.st := by rw [← live_st s, h, live_st]
  have hadv : s.advance.live = t.advance.live := by rw [live_advance, h, live_advance]
  have hin := inputs_eq_of_live_eq h
  obtain ⟨hl, hcases⟩ := step_cases hs
  have hl' : t.cfg.legal := hcfg ▸ hl
  rw [hin, hst] at hcases
  obtain ⟨hr, rfl⟩ | ⟨hr, hi, hv, hx⟩ | ⟨hr, hi, hv, rfl⟩ | ⟨hr, hb, rfl⟩ := hcases
  · have hreset : s.resetTick = t.resetTick := by
      rw [State.resetTick, hcfg, ← live_host s, h, live_host, State.resetTick]
    exact ⟨_, step_reset hl' hr, congrArg State.live hreset⟩
  · have hx' := step_dispatch hl (hin ▸ hr) (hst.trans hi) (hin ▸ hv)
    rw [hs, hin] at hx'
    injection hx' with hu
    refine ⟨_, step_dispatch hl' hr hi hv, ?_⟩
    rw [hu, ← live_dispatch (s := s.advance) _ _ (hst.trans hi), hadv, live_dispatch (s := t.advance) _ _ hi]
  · exact ⟨_, step_quiet hl' hr hi hv, hadv⟩
  · refine ⟨_, step_busy hl' hr hb, ?_⟩
    rw [← live_timerTick (s := s.advance) (by rwa [advance_st, hst]), hadv, live_timerTick (s := t.advance) hb]

/-- Two states that differ in dead registers only show the same outputs in every tick from then on. -/
theorem observe_outputs_eq_of_live_eq (n : Nat) (h : s.live = t.live) :
    (observe n s).map (List.map State.outputs) = (observe n t).map (List.map State.outputs) := by
  induction n generalizing s t with
  | zero => rfl
  | succ n ih =>
    have hcfg : s.cfg = t.cfg := by rw [← live_cfg s, h, live_cfg]
    by_cases hl : s.cfg.legal
    · obtain ⟨u, hu⟩ := step_legal hl
      obtain ⟨w, hw, huw⟩ := step_live h hu
      have hout : u.outputs = w.outputs := by rw [← live_outputs u, huw, live_outputs]
      have htail := congrArg (Option.map (List.cons u.outputs)) (ih huw)
      simpa [observe, hu, hw, hout, Option.map_map, Function.comp_def] using htail
    · simp only [observe, step_illegal hl, step_illegal (hcfg ▸ hl)]

/-- Settles O51: in `IDLE` the pin, the configuration and the host are all that is live. -/
theorem deadRegistersNeverShow : Obligations.DeadRegistersNeverShow := by
  intro n s t hs ht hpin hcfg hhost
  apply observe_outputs_eq_of_live_eq
  rw [live_idle hs, live_idle ht, hpin, hcfg, hhost]

end Sys2Proof.Machine

/-! PROOF. What no tick and no instruction touches, the reset state, and the outputs of each phase (10_state.md R36 to
R39, R42; 42_transmitter.md R194). -/

namespace Sys2Proof.Machine

variable {s t : State}

/-- Outside `IDLE` a request, the reserved one among them, changes nothing (R37). -/
theorem exec_request_busy {i : Instr} {w : BitVec 12} (hl : s.cfg.legal) (hbusy : s.st ≠ .idle)
    (hw : encode i = .req12 w) : exec i s = .next s := by
  cases i
  case reserved op v => rw [exec_reserved, guarded_legal hl]
  case pwrOn | pwrOff | setFan | setFlame | setAux1 | setAux2 | seqStart | seqStop =>
    exact request_busy _ _ hl hbusy
  all_goals cases hw

/-- Where no command can start, neither a request nor a row of the ROM changes anything (20_memory.md R72). -/
theorem exec_waits (i : Instr) (hl : s.cfg.legal) (hs : s.canStart = false) : exec i s = .next s := by
  have hbusy : s.st ≠ .idle := by
    intro hi
    simp [State.canStart, hi] at hs
  cases i <;> simp [request_busy _ _ hl hbusy, command_waits hl hs, guarded_legal hl]

/-- Settles O30: a busy tick in which a command can start is the last one of the wait of a sequence, and there the
hypothesis leaves the requests alone. -/
theorem noInstructionAltersARunningOperation : Obligations.NoInstructionAltersARunningOperation := by
  intro s i hl hbusy hwait
  cases hs : s.canStart with
  | false => exact exec_waits i hl hs
  | true =>
    obtain hi | ⟨hq, hlast, hrem⟩ := canStart_iff.mp hs
    · exact absurd hi hbusy
    · obtain hcount | howed | ⟨w, hw⟩ := hwait hq
      · exact absurd hcount (BitVec.not_lt.mpr hlast)
      · exact absurd hrem howed
      · exact exec_request_busy hl hbusy hw

/-- An instruction writes neither the configuration nor the host's list. -/
theorem exec_keeps {i : Instr} (h : exec i s = .next t) : t.cfg = s.cfg ∧ t.host = s.host := by
  obtain ⟨-, rfl | ⟨op, v, -, rfl⟩ | ⟨a, c, -, -, rfl⟩⟩ := exec_cases h
  · exact ⟨rfl, rfl⟩
  · exact dispatch_keeps op v s
  · exact ⟨startTx_cfg c s, startTx_host c s⟩

/-- A tick of any kind keeps the configuration and uses up one entry of the host's list. -/
theorem step_keeps (h : step s = .next t) : t.cfg = s.cfg ∧ t.host = s.host.tail := by
  obtain ⟨-, ⟨-, rfl⟩ | ⟨-, -, -, hx⟩ | ⟨-, -, -, rfl⟩ | ⟨-, -, rfl⟩⟩ := step_cases h
  · exact ⟨rfl, rfl⟩
  · exact exec_keeps hx
  · exact ⟨rfl, rfl⟩
  · exact timerTick_keeps s.advance

/-- Settles O49: both halves are the frame of `step` and of `exec`. -/
theorem theConfigurationNeverChanges : Obligations.TheConfigurationNeverChanges :=
  fun _ _ => ⟨step_keeps, fun _ => exec_keeps⟩

/-! The outputs. -/

/-- With `rst = 0` the outputs are those of the phase, and the pin. -/
theorem outputs_eq (hr : s.inputs.rst = false) :
    s.outputs = ⟨s.st == .idle, s.st != .idle, s.st == .high || s.st == .low || s.st == .sgap || s.st == .mgap,
      s.rfOut⟩ := by
  simp only [State.outputs, State.reqReady, State.busy, State.irqInhibit, hr, Bool.not_false, Bool.and_true]

/-- Settles O35: the tick is `resetTick`, and with `rst = 1` the encoder is not ready for a request. -/
theorem resetTickWritesTheResetState : Obligations.ResetTickWritesTheResetState := by
  intro s hl hr
  refine ⟨by simp [State.reqReady, hr], by simp [State.accepts, hr], s.resetTick, step_reset hl hr, rfl, ?_⟩
  intro hr'
  rw [outputs_eq hr']
  rfl

/-- Settles O36: every register of `State.resetWith` is written out in R42. -/
theorem resetStateIsTheSpecs : Obligations.ResetStateIsTheSpecs := by
  refine ⟨rfl, rfl, rfl, rfl, rfl, rfl, rfl, rfl, rfl, rfl, rfl, rfl, ?_⟩
  exact outputs_eq (s := State.reset) rfl

/-- Settles O50: the status outputs follow the phase, and by R43 the pin is high in `HIGH` alone. -/
theorem phasesShowTheirOutputs : Obligations.PhasesShowTheirOutputs := by
  intro s h hr
  rw [outputs_eq hr]
  refine ⟨fun hst => ?_, fun hst => ?_, fun hst => ?_, fun hst => ?_⟩
  · rw [h.rfOut_eq_false (by simp [hst]), hst]
    rfl
  · rw [h.pin.mpr hst, hst]
    rfl
  · rcases hst with hst | hst | hst <;> rw [h.rfOut_eq_false (by simp [hst]), hst] <;> rfl
  · rw [h.rfOut_eq_false (by simp [hst]), hst]
    rfl

end Sys2Proof.Machine

/-! PROOF. The bytes of an instruction (20_memory.md R67; 30_encoding.md R90, R94), the ROM (20_memory.md R60 to R62)
and the start of a selected row (R72), and a frame as its bits: segment by segment, as one word, and as pulses on the
pin (R65, R66). -/

namespace Sys2Proof

/-- A well-formed instruction is read back from its word: a request by its operation number, a frame by its code. -/
theorem decode_encode (i : Instr) (hw : i.wellFormed = true) : decode (encode i) = .ok i := by
  cases i
  case reserved op v => exact congrArg Except.ok (decodeReq_reserved op v (of_decide_eq_true hw))
  case pwrOn | pwrOff | setFan | setFlame | setAux1 | setAux2 | seqStart | seqStop => simp [encode, decode]
  all_goals exact decodeFrame_frameWord _ _

/-- The bytes of a word decode as the word itself: their number tells the format, and no bit above its width is set. -/
theorem decodeBytes_bytes (w : CodeWord) : decodeBytes w.bytes = decode w := by
  cases w with
  | req12 w =>
    have hvalue : bytesToNat (natToBytes 2 w.toNat) = w.toNat := bytesToNat_natToBytes _ _ (by omega)
    simp only [decodeBytes, CodeWord.bytes, natToBytes_length, hvalue, if_pos w.isLt, BitVec.ofNat_toNat,
      BitVec.setWidth_eq, if_true]
  | frame52 w =>
    have hvalue : bytesToNat (natToBytes 7 w.toNat) = w.toNat := bytesToNat_natToBytes _ _ (by omega)
    simp only [decodeBytes, CodeWord.bytes, natToBytes_length, hvalue, if_pos w.isLt, BitVec.ofNat_toNat,
      BitVec.setWidth_eq, if_true, if_neg (show ¬ 7 = 2 by decide)]

/-- Settles O3: the bytes decode as the word, and the word as the instruction. -/
theorem bytesOfAnInstructionDecodeToIt : Obligations.BytesOfAnInstructionDecodeToIt := by
  intro i hw
  rw [encodeBytes, decodeBytes_bytes, decode_encode i hw]

/-- The first 28 bits of a frame word are the header and the start bytes; the command is not among them (R155). -/
theorem frameWord_start (code : Byte) (f : FrameFields) :
    (frameWord code f).extractLsb' 24 28 = 0b1010#4 ++ f.start0 ++ f.start1 ++ f.start2 := by
  apply BitVec.eq_of_toNat_eq
  simp only [BitVec.extractLsb'_toNat, frameWord_toNat, append_toNat, Nat.shiftRight_eq_div_pow, BitVec.toNat_ofNat]
  omega

end Sys2Proof

namespace Sys2Proof.Machine

open Sys2Proof.Statements

/-! The ROM. -/

/-- Cells laid out from an address on hold the codes of the rows in order, and no byte past the last row. -/
theorem read_romCellsFrom (b a : Nat) (rows : List RomRow) :
    (romCellsFrom b rows).read (b + a) = (rows.map RomRow.code)[a]? := by
  induction rows generalizing b a with
  | nil => rfl
  | cons r rows ih =>
    cases a with
    | zero => simp [romCellsFrom, Memory.read]
    | succ a =>
      have hnext := ih (b + 1) a
      rw [Nat.add_assoc, Nat.add_comm 1 a] at hnext
      simpa [romCellsFrom, Memory.read] using hnext

theorem memRead_eq (a : Nat) : memRead a = (romRows.map RomRow.code)[a]? := by
  have hread := read_romCellsFrom 0 a romRows
  rwa [Nat.zero_add] at hread

/-- Settles O9: the ROM is the cells of `romRows`, whose codes are the seventeen. -/
theorem romHoldsTheSeventeenCodes : Obligations.RomHoldsTheSeventeenCodes :=
  ⟨rom_wf, memRead_eq⟩

/-! The rows of the ROM, selected. -/

variable {s : State}

theorem canStart_of_selectable (h : Selectable s) : s.canStart = true :=
  canStart_iff.mpr h.right

/-- The first tick of a transmission leaves the sequence registers (R182). -/
theorem startTx_eq_firstTick (c : Byte) (s : State) : startTx c s = firstTick c s.seqid s.seqpc s :=
  startTx_eq c s

/-- A selected row starts the code that the ROM holds at its address. -/
theorem command_selectable {a : Nat} {c : Byte} (h : Selectable s) (hm : memRead a = some c) :
    command a s = .next (firstTick c s.seqid s.seqpc s) := by
  rw [command_starts h.left (canStart_of_selectable h) hm, startTx_eq_firstTick]

/-- Settles O27: the rows are ROM addresses 0 to 6. -/
theorem powerAndFlameRowsStartTheirCode : Obligations.PowerAndFlameRowsStartTheirCode := by
  intro s f h
  exact ⟨command_selectable h memRead_0, command_selectable h memRead_1, command_selectable h memRead_2,
    command_selectable h memRead_3, command_selectable h memRead_4, command_selectable h memRead_5,
    command_selectable h memRead_6⟩

/-- Settles O28: the rows are ROM addresses 7 to 16. -/
theorem fanAndAuxRowsStartTheirCode : Obligations.FanAndAuxRowsStartTheirCode := by
  intro s f h
  exact ⟨command_selectable h memRead_7, command_selectable h memRead_8, command_selectable h memRead_9,
    command_selectable h memRead_10, command_selectable h memRead_11, command_selectable h memRead_12,
    command_selectable h memRead_13, command_selectable h memRead_14, command_selectable h memRead_15,
    command_selectable h memRead_16⟩

/-! A frame as its bits. -/

/-- The low `n` bits of a word, the most significant first: the order in which they are sent (R65, R66). -/
def lowBits {w : Nat} (n : Nat) (v : BitVec w) : List Bool :=
  (List.range n).map fun j => v.getLsbD (n - 1 - j)

@[simp] theorem lowBits_zero {w : Nat} (v : BitVec w) : lowBits 0 v = [] := rfl

theorem lowBits_succ {w : Nat} (n : Nat) (v : BitVec w) : lowBits (n + 1) v = v.getLsbD n :: lowBits n v := by
  simp [lowBits, List.range_succ_eq_map, Function.comp_def, Nat.sub_sub, Nat.add_comm 1]

/-- The bits of two words put together are the bits of the first and then all bits of the second. -/
theorem lowBits_append {m n : Nat} (k : Nat) (x : BitVec m) (y : BitVec n) :
    lowBits (k + n) (x ++ y) = lowBits k x ++ lowBits n y := by
  induction k with
  | zero =>
    rw [Nat.zero_add, lowBits_zero, List.nil_append]
    apply List.map_congr_left
    intro j hj
    have hlow : n - 1 - j < n := by
      have := List.mem_range.mp hj
      omega
    rw [BitVec.getLsbD_append, if_pos hlow]
  | succ k ih =>
    rw [Nat.add_right_comm, lowBits_succ, ih, lowBits_succ, BitVec.getLsbD_append, if_neg (by omega),
      Nat.add_sub_cancel, List.cons_append]

/-- The segments of a frame, read in order, are the frame word read from its top bit (R66, R155). -/
theorem frameSegments_bits (cfg : Config) (c : Byte) :
    ((frameSegments cfg c).flatMap fun p => lowBits p.2 p.1) = lowBits 52 (frameBits cfg c) := by
  have hheader : lowBits 4 0b1010#8 = lowBits 4 0b1010#4 := by decide
  have hword : lowBits 52 (frameBits cfg c) = lowBits 4 0b1010#4 ++ lowBits 8 cfg.start0 ++ lowBits 8 cfg.start1 ++
      lowBits 8 cfg.start2 ++ lowBits 8 c ++ lowBits 8 (encodeByte cfg.k c) ++
      lowBits 8 (invByte (encodeByte cfg.k c)) := by
    simp only [← lowBits_append]
    rfl
  rw [hword]
  simp [frameSegments, hheader]

/-- Settles O17: the command stands below bit 24, and the bits of the segments are those of the word. -/
theorem frameHasSevenSegments : Obligations.FrameHasSevenSegments := by
  intro cfg c d
  refine ⟨rfl, rfl, ?_, frameSegments_bits cfg c⟩
  rw [frameBits, frameBits, frameWord_start, frameWord_start]
  rfl

/-! A frame as its pulses. -/

/-- The lengths of the high runs of a waveform, in order. -/
def pulses (w : Waveform) : List Nat :=
  (w.filter fun r => r.1).map Prod.snd

@[simp] theorem pulses_append (v w : Waveform) : pulses (v ++ w) = pulses v ++ pulses w := by
  simp only [pulses, List.filter_append, List.map_append]

@[simp] theorem pulses_low (d : Nat) : pulses [(false, d)] = [] := rfl

@[simp] theorem pulses_emitBit (cfg : Config) (b : Bool) (p : Nat) : pulses (emitBit cfg b p) = [highTime cfg b] := rfl

theorem pulses_emitBits (cfg : Config) (v : Byte) (p n : Nat) :
    pulses (emitBits cfg v p n) = (lowBits n v).map (highTime cfg) := by
  induction n with
  | zero => rfl
  | succ n ih =>
    rw [emitBits, pulses_append, pulses_emitBit, ih, lowBits_succ, List.map_cons, List.singleton_append]

/-- A segment has one pulse for each bit, and none in its pause (R171). -/
@[simp] theorem pulses_emitSegment (cfg : Config) (v : Byte) (n p d : Nat) :
    pulses (emitSegment cfg v n p d) = (lowBits n v).map (highTime cfg) := by
  rw [emitSegment, pulses_append, pulses_low, List.append_nil, pulses_emitBits]

/-- The pulses of a frame are those of its segments, in order (R172). -/
theorem pulses_emitFrame (cfg : Config) (c : Byte) :
    pulses (emitFrame cfg c) = ((frameSegments cfg c).flatMap fun p => lowBits p.2 p.1).map (highTime cfg) := by
  simp [emitFrame, frameSegments]

/-- Settles O20: the pulses of the segments are the bits of the frame word. -/
theorem pulsesAreTheFrameBits : Obligations.PulsesAreTheFrameBits := by
  intro cfg c
  have hpulses : pulses (emitFrame cfg c) = (lowBits 52 (frameBits cfg c)).map (highTime cfg) := by
    rw [pulses_emitFrame, frameSegments_bits]
  exact hpulses.trans List.map_map

end Sys2Proof.Machine

/-! PROOF. The two formats read back and forth (30_encoding.md R90, R94, R98 to R100): every word has at most one
meaning, and which words have one. -/

namespace Sys2Proof

open Sys2Proof.Machine

/-- Settles O1: a request is read back by its operation number, a frame by its command byte. -/
theorem decodeOfEncodeIsTheInstruction : Obligations.DecodeOfEncodeIsTheInstruction :=
  decode_encode

/-! Requests. -/

/-- The reserved operation numbers (R98), and the eight that R90 names. -/
theorem op_cases (op : BitVec 4) :
    8 ≤ op.toNat ∨ op = 0x0#4 ∨ op = 0x1#4 ∨ op = 0x2#4 ∨ op = 0x3#4 ∨ op = 0x4#4 ∨ op = 0x5#4 ∨ op = 0x6#4 ∨
      op = 0x7#4 := by
  bv_omega

/-- A request encodes as the operation number and the argument that it was decoded from. -/
theorem encode_decodeReq_reqWord (op : BitVec 4) (v : Byte) :
    encode (decodeReq (reqWord op v)) = .req12 (reqWord op v) := by
  obtain h8 | rfl | rfl | rfl | rfl | rfl | rfl | rfl | rfl := op_cases op
  · rw [decodeReq_reserved op v h8, encode]
  all_goals simp [encode]

theorem encode_decodeReq (w : BitVec 12) : encode (decodeReq w) = .req12 w := by
  have h := encode_decodeReq_reqWord (w.extractLsb' 8 4) (w.extractLsb' 0 8)
  rwa [reqWord_fields] at h

/-- The reserved row is decoded from reserved operation numbers only. -/
theorem decodeReq_reqWord_wellFormed (op : BitVec 4) (v : Byte) : (decodeReq (reqWord op v)).wellFormed = true := by
  obtain h8 | rfl | rfl | rfl | rfl | rfl | rfl | rfl | rfl := op_cases op
  · rw [decodeReq_reserved op v h8]
    exact decide_eq_true h8
  all_goals simp [Instr.wellFormed]

theorem decodeReq_wellFormed (w : BitVec 12) : (decodeReq w).wellFormed = true := by
  have h := decodeReq_reqWord_wellFormed (w.extractLsb' 8 4) (w.extractLsb' 0 8)
  rwa [reqWord_fields] at h

/-- The reserved row is that of the operation numbers from 8 on. -/
theorem decodeReq_reqWord_eq_reserved_iff (op : BitVec 4) (v : Byte) :
    (∃ op' v', decodeReq (reqWord op v) = .reserved op' v') ↔ 8 ≤ op.toNat := by
  constructor
  · rintro ⟨op', v', h⟩
    have hw := encode_decodeReq_reqWord op v
    have hwf := decodeReq_reqWord_wellFormed op v
    rw [h] at hw hwf
    have hop : op' = op := by
      rw [← reqWord_op op' v', ← reqWord_op op v]
      exact congrArg _ (CodeWord.req12.inj hw)
    exact hop ▸ of_decide_eq_true hwf
  · exact fun h8 => ⟨op, v, decodeReq_reserved op v h8⟩

/-- Bit 11 of a request word is the top bit of its operation number (R90). -/
theorem getLsbD_eleven_iff (w : BitVec 12) : w.getLsbD 11 = true ↔ 8 ≤ (w.extractLsb' 8 4).toNat := by
  rw [BitVec.extractLsb'_toNat, Nat.shiftRight_eq_div_pow, BitVec.getLsbD, Nat.testBit_eq_decide_div_mod_eq,
    decide_eq_true_iff]
  omega

theorem decodeReq_eq_reserved_iff (w : BitVec 12) :
    (∃ op v, decodeReq w = .reserved op v) ↔ w.getLsbD 11 = true := by
  rw [getLsbD_eleven_iff, ← decodeReq_reqWord_eq_reserved_iff _ (w.extractLsb' 0 8), reqWord_fields]

/-- The request that brings the encoder to run a request is its own word. -/
theorem requestFor_of_encode {i : Instr} {w : BitVec 12} (h : encode i = .req12 w) : requestFor i = w := by
  cases i <;> cases h <;> rfl

/-- Settles O4: the instruction is the one that the word decodes to. -/
theorem everyRequestWordIsARequest : Obligations.EveryRequestWordIsARequest := fun w =>
  ⟨decodeReq w, rfl, decodeReq_wellFormed w, requestFor_of_encode (encode_decodeReq w),
    (decodeReq_eq_reserved_iff w).symm⟩

/-! Frames. -/

/-- A frame word with the header 1010 decodes to the row of its command byte, with its other fields (R94). -/
theorem decodeFrame_of_header {w : BitVec 52} (hheader : w.extractLsb' 48 4 = 0b1010#4) :
    ∃ f, decodeFrame w = commandOf (w.extractLsb' 16 8) f ∧ frameWord (w.extractLsb' 16 8) f = w :=
  ⟨_, by rw [decodeFrame, if_pos hheader], frameWord_of_fields w hheader⟩

theorem decodeFrame_badHeader {w : BitVec 52} (hheader : w.extractLsb' 48 4 ≠ 0b1010#4) :
    decodeFrame w = .error .badHeader := by
  rw [decodeFrame, if_neg hheader]

/-- A command byte that has a row is the one that its row encodes (R99). -/
theorem encode_of_commandOf {code : Byte} {f : FrameFields} {i : Instr} (h : commandOf code f = .ok i) :
    encode i = .frame52 (frameWord code f) := by
  unfold commandOf at h
  split at h
  case h_18 => cases h
  all_goals cases h; rfl

/-- A code of the ROM has a row. -/
theorem commandOf_code {code : Byte} (f : FrameFields) (h : code ∈ romRows.map RomRow.code) :
    ∃ i, commandOf code f = .ok i := by
  obtain ⟨r, hr, rfl⟩ := List.mem_map.mp h
  fin_cases hr <;> exact ⟨_, rfl⟩

/-- Any other command byte has none. -/
theorem commandOf_noCode {code : Byte} (f : FrameFields) (h : code ∉ romRows.map RomRow.code) :
    commandOf code f = .error .unknownCode := by
  unfold commandOf
  split
  case h_18 => rfl
  all_goals exact absurd (by decide) h

/-- Settles O2: a request word is its two fields, and a frame word with the header 1010 is its fields. -/
theorem encodeOfDecodeIsTheWord : Obligations.EncodeOfDecodeIsTheWord := by
  intro w i h
  cases w with
  | req12 w => exact Except.ok.inj h ▸ encode_decodeReq w
  | frame52 w =>
    rw [decode] at h
    by_cases hheader : w.extractLsb' 48 4 = 0b1010#4
    · obtain ⟨f, hdecode, hword⟩ := decodeFrame_of_header hheader
      rw [encode_of_commandOf (hdecode ▸ h), hword]
    · rw [decodeFrame_badHeader hheader] at h
      cases h

/-- Settles O5: after the header only the command byte is looked at (log 8). -/
theorem frameWordsOutsideTheTableAreRejected : Obligations.FrameWordsOutsideTheTableAreRejected := by
  intro w
  refine ⟨decodeFrame_badHeader, fun hheader hcode => ?_, fun hheader hcode => ?_⟩
  all_goals
    obtain ⟨f, hdecode, -⟩ := decodeFrame_of_header hheader
    rw [decode, hdecode]
  · exact commandOf_noCode f hcode
  · exact commandOf_code f hcode

/-- Settles O6: each word is a closed term that the decoder evaluates. -/
theorem wordsOfTheTestVectorsDecode : Obligations.WordsOfTheTestVectorsDecode :=
  ⟨rfl, rfl, rfl, rfl, rfl, rfl, rfl, rfl⟩

/-- Settles O7: `FrameBits` is the frame word of the code and the fields that the configuration gives. -/
theorem frameBitsHoldTheFields : Obligations.FrameBitsHoldTheFields := fun cfg c =>
  frameWord_fields c (frameFieldsOf cfg c)

/-- Settles O8: decoding a frame word is looking up the row of its code. -/
theorem framesOfTheCodesAreTheRows : Obligations.FramesOfTheCodesAreTheRows := by
  intro cfg frame
  have hrow (c : Byte) : frame c = commandOf c (frameFieldsOf cfg c) := decodeFrame_frameWord _ _
  simp only [hrow, commandOf, and_self]

end Sys2Proof

/-! PROOF. The lookups of the ROM (40_command_table.md R120 to R123, R143). A lookup by name and the associative lookup
both search the rows; the rows of one family are told apart by the level alone. -/

namespace Sys2Proof.Machine

open Sys2Proof.Statements

/-! The lookup by name. -/

/-- The level in a key, written out: what follows the name of the family, if the key begins with it. -/
def levelNumeral (pre key : String) : Option (List Char) :=
  if pre.toList <+: key.toList then some (key.toList.drop pre.toList.length) else none

theorem levelNumeral_append (pre rest : String) : levelNumeral pre (pre ++ rest) = some rest.toList := by
  simp [levelNumeral]

theorem toString_int_injective : Function.Injective (toString : Int → String) := by
  intro m n h
  rw [Int.toString_eq_repr, Int.toString_eq_repr] at h
  exact Int.repr_injective h

/-- A level resolves to nothing if no row of its family has its numeral. -/
theorem resolveWithValue_none {pre : String} {levels : List Int}
    (hkeys : ∀ r ∈ romRows, ∀ cs ∈ levelNumeral pre r.key, cs ∈ levels.map fun n => (toString n).toList)
    {v : Int} (hv : v ∉ levels) : resolveWithValue pre v = none := by
  rw [resolveWithValue, resolve, Option.map_eq_none_iff, List.find?_eq_none]
  intro r hr hkey
  have hnumeral := hkeys r hr (toString v).toList
  rw [beq_iff_eq.mp hkey, levelNumeral_append] at hnumeral
  obtain ⟨n, hn, heq⟩ := List.mem_map.mp (hnumeral rfl)
  exact hv (toString_int_injective (String.toList_inj.mp heq) ▸ hn)

/-- A family whose rows have just these levels, and whose codes count up from `base` with the level. -/
theorem resolveWithValue_family {pre : String} {base : Byte} {levels : List Int} {v : Int} {p : Prop} [Decidable p]
    (hkeys : ∀ r ∈ romRows, ∀ cs ∈ levelNumeral pre r.key, cs ∈ levels.map fun n => (toString n).toList)
    (hcodes : ∀ n ∈ levels, resolveWithValue pre n = some (base + BitVec.ofInt 8 n)) (hlevels : v ∈ levels ↔ p) :
    resolveWithValue pre v = if p then some (base + BitVec.ofInt 8 v) else none := by
  rw [← if_congr hlevels rfl rfl]
  split
  case isTrue hv => exact hcodes v hv
  case isFalse hv => exact resolveWithValue_none hkeys hv

theorem resolveWithValue_fan (v : Int) :
    resolveWithValue "Fan" v = if 0 ≤ v ∧ v ≤ 3 then some (0x40#8 + BitVec.ofInt 8 v) else none :=
  resolveWithValue_family (levels := [0, 1, 2, 3]) (by decide) (by decide) (by simp; omega)

theorem resolveWithValue_flame (v : Int) :
    resolveWithValue "Flame" v = if 1 ≤ v ∧ v ≤ 5 then some (0x30#8 + BitVec.ofInt 8 v) else none :=
  resolveWithValue_family (levels := [1, 2, 3, 4, 5]) (by decide) (by decide) (by simp; omega)

theorem resolveWithValue_aux1 (v : Int) :
    resolveWithValue "AUX1" v = if 0 ≤ v ∧ v ≤ 3 then some (0x50#8 + BitVec.ofInt 8 v) else none :=
  resolveWithValue_family (levels := [0, 1, 2, 3]) (by decide) (by decide) (by simp; omega)

theorem resolveWithValue_aux2 (v : Int) :
    resolveWithValue "AUX2" v = if 0 ≤ v ∧ v ≤ 1 then some (0x60#8 + BitVec.ofInt 8 v) else none :=
  resolveWithValue_family (levels := [0, 1]) (by decide) (by decide) (by simp; omega)

/-- Settles O13: one family after the other. -/
theorem levelsOutsideTheRangeResolveToNothing : Obligations.LevelsOutsideTheRangeResolveToNothing := fun v =>
  ⟨resolveWithValue_fan v, resolveWithValue_flame v, resolveWithValue_aux1 v, resolveWithValue_aux2 v⟩

/-! The lookup of a request. -/

/-- The operation numbers that have no row, and the six that have. -/
theorem rom_op_cases (op : BitVec 4) :
    6 ≤ op.toNat ∨ op = 0x0#4 ∨ op = 0x1#4 ∨ op = 0x2#4 ∨ op = 0x3#4 ∨ op = 0x4#4 ∨ op = 0x5#4 := by
  bv_omega

/-! By its name. -/

theorem keyOf_other (op : BitVec 4) (v : Byte) (h : 6 ≤ op.toNat) : keyOf op v = none := by
  unfold keyOf
  split
  case h_7 => rfl
  all_goals exact absurd h (by decide)

/-- The name of a request with a level (30_encoding.md R92) is the one that R121 forms. -/
theorem keyOf_levels (v : Byte) :
    (keyOf 0x2#4 v).bind resolve = resolveWithValue "Fan" v.toNat ∧
    (keyOf 0x3#4 v).bind resolve = resolveWithValue "Flame" v.toNat ∧
    (keyOf 0x4#4 v).bind resolve = resolveWithValue "AUX1" v.toNat ∧
    (keyOf 0x5#4 v).bind resolve = resolveWithValue "AUX2" v.toNat := ⟨rfl, rfl, rfl, rfl⟩

theorem keyOf_bind_resolve (op : BitVec 4) (v : Byte) : (keyOf op v).bind resolve = romLookup op v := by
  obtain ⟨hfan, hflame, haux1, haux2⟩ := keyOf_levels v
  obtain h6 | rfl | rfl | rfl | rfl | rfl | rfl := rom_op_cases op
  · rw [keyOf_other op v h6, romLookup_other op v h6, Option.bind_none]
  · exact (by decide : resolve "PowerOn" = some 0x01#8)
  · exact (by decide : resolve "PowerOff" = some 0x02#8)
  · rw [hfan, resolveWithValue_fan, romLookup_fan]; simp
  · rw [hflame, resolveWithValue_flame, romLookup_flame]; simp
  · rw [haux1, resolveWithValue_aux1, romLookup_aux1]; simp
  · rw [haux2, resolveWithValue_aux2, romLookup_aux2]; simp

/-! By its tag. -/

theorem romMatch_none {op : BitVec 4} {v : Byte} (htags : ∀ r ∈ romRows, r.op = op → ∃ n ∈ r.val, n ≠ v) :
    romMatch op v = none := by
  rw [romMatch, Option.map_eq_none_iff, List.find?_eq_none]
  intro r hr hanswers
  rw [RomRow.answers, Bool.and_eq_true, beq_iff_eq] at hanswers
  obtain ⟨hop, hval⟩ := hanswers
  obtain ⟨n, hn, hne⟩ := htags r hr hop
  rw [Option.mem_def.mp hn] at hval
  exact hne (beq_iff_eq.mp hval)

theorem romMatch_other (op : BitVec 4) (v : Byte) (h : 6 ≤ op.toNat) : romMatch op v = none := by
  have hops : ∀ r ∈ romRows, r.op.toNat < 6 := by decide
  refine romMatch_none fun r hr hop => absurd (hops r hr) ?_
  rw [hop]
  exact Nat.not_lt.mpr h

/-- A family whose tags have just these levels, and whose codes count up from `base` with the level. -/
theorem romMatch_family {op : BitVec 4} {base v : Byte} {levels : List Byte} {p : Prop} [Decidable p]
    (htags : ∀ r ∈ romRows, r.op = op → ∃ n ∈ r.val, n ∈ levels)
    (hcodes : ∀ n ∈ levels, romMatch op n = some (base + n)) (hlevels : v ∈ levels ↔ p) :
    romMatch op v = if p then some (base + v) else none := by
  rw [← if_congr hlevels rfl rfl]
  split
  case isTrue hv => exact hcodes v hv
  case isFalse hv =>
    refine romMatch_none fun r hr hop => ?_
    obtain ⟨n, hn, hmem⟩ := htags r hr hop
    exact ⟨n, hn, fun heq => hv (heq ▸ hmem)⟩

theorem romMatch_eq_romLookup (op : BitVec 4) (v : Byte) : romMatch op v = romLookup op v := by
  obtain h6 | rfl | rfl | rfl | rfl | rfl | rfl := rom_op_cases op
  · rw [romMatch_other op v h6, romLookup_other op v h6]
  · rfl
  · rfl
  · rw [romLookup_fan]
    exact romMatch_family (levels := [0, 1, 2, 3]) (by decide) (by decide) (by simp; bv_omega)
  · rw [romLookup_flame]
    exact romMatch_family (levels := [1, 2, 3, 4, 5]) (by decide) (by decide) (by simp; bv_omega)
  · rw [romLookup_aux1]
    exact romMatch_family (levels := [0, 1, 2, 3]) (by decide) (by decide) (by simp; bv_omega)
  · rw [romLookup_aux2]
    exact romMatch_family (levels := [0, 1]) (by decide) (by decide) (by simp; bv_omega)

/-- Settles O11: the lookup by name and the associative lookup are each that of R123. -/
theorem romLookupIsTheLookupOfTheKey : Obligations.RomLookupIsTheLookupOfTheKey := fun op v =>
  ⟨(keyOf_bind_resolve op v).symm, romLookup_other op v, (romMatch_eq_romLookup op v).symm⟩

/-- Settles O12: one family after the other; each disjunct of `Hits` names its own operation. -/
theorem romLookupHitsExactlyTheRanges : Obligations.RomLookupHitsExactlyTheRanges := by
  intro op v c
  obtain h6 | rfl | rfl | rfl | rfl | rfl | rfl := rom_op_cases op
  · have hops : op ≠ 0x0#4 ∧ op ≠ 0x1#4 ∧ op ≠ 0x2#4 ∧ op ≠ 0x3#4 ∧ op ≠ 0x4#4 ∧ op ≠ 0x5#4 := by bv_omega
    simp [Hits, hops, romLookup_other op v h6]
  · simp [Hits, eq_comm (a := c)]
  · simp [Hits, eq_comm (a := c)]
  · simp [Hits, eq_comm (a := c), romLookup_fan]
  · simp [Hits, eq_comm (a := c), romLookup_flame, and_assoc]
  · simp [Hits, eq_comm (a := c), romLookup_aux1]
  · simp [Hits, eq_comm (a := c), romLookup_aux2]

end Sys2Proof.Machine

/-! PROOF. The tick that runs a request (42_transmitter.md R180, R181), and the request that a placed word stands for
(log 10). -/

namespace Sys2Proof.Machine

open Sys2Proof.Statements

variable {s : State} {i : Instr}

/-- The tick that accepts a request runs the instruction its word decodes to (R180). -/
theorem step_decoded (hl : s.cfg.legal) (hi : s.st = .idle) (hr : s.inputs.rst = false)
    (hv : s.inputs.reqValid = true) (hd : decodeReq s.inputs.word = i) : step s = exec i s.advance := by
  rw [step_request hl hr hi hv, State.fetched, hd]

/-- Settles O33: the word on the ports is the operation number and the argument put together. -/
theorem stepRunsTheDecodedRequest : Obligations.StepRunsTheDecodedRequest := fun _ _ hready hr hv hd =>
  step_decoded hready.left hready.right hr hv (Except.ok.inj hd)

@[simp] theorem ofWord_word (w : BitVec 12) : (Inputs.ofWord w).word = w :=
  reqWord_fields w

/-- The next step runs the request that is placed, in `IDLE` with the pin low and no sequence running (log 10). -/
theorem step_withRequest (hl : s.cfg.legal) (w : BitVec 12) :
    step (s.withRequest w) = exec (decodeReq w) (ended { used s with rfOut := false }) :=
  step_decoded (s := s.withRequest w) hl rfl rfl rfl (congrArg decodeReq (ofWord_word w))

/-- A table word with the bytes of a well-formed instruction places the request for it (log 9, log 10). -/
theorem withFetchWord_encodeBytes (s : State) {nbits w : Nat} (hw : i.wellFormed = true)
    (hbytes : natToBytes ((nbits + 7) / 8) w = encodeBytes i) :
    s.withFetchWord nbits w = s.withRequest (requestFor i) := by
  have hdecode : decodeTableWord nbits w = some i := by
    rw [decodeTableWord, hbytes, bytesOfAnInstructionDecodeToIt i hw]
  rw [State.withFetchWord, hdecode]

/-- A command is the row at a ROM address, and the request for it looks up the code at that address
(40_command_table.md R124 to R140). -/
theorem row_of_encode {w : BitVec 52} (hw : encode i = .frame52 w) :
    ∃ a op v, (∀ s, exec i s = command a s) ∧ requestFor i = reqWord op v ∧
      romLookup op v = memRead a ∧ ∃ c, memRead a = some c := by
  cases i
  case pwrOn | pwrOff | setFan | setFlame | setAux1 | setAux2 | seqStart | seqStop | reserved => cases hw
  case powerOn => exact ⟨0, 0x0#4, 0#8, fun _ => rfl, rfl, rfl, _, memRead_0⟩
  case powerOff => exact ⟨1, 0x1#4, 0#8, fun _ => rfl, rfl, rfl, _, memRead_1⟩
  case flame1 => exact ⟨2, 0x3#4, 1#8, fun _ => rfl, rfl, rfl, _, memRead_2⟩
  case flame2 => exact ⟨3, 0x3#4, 2#8, fun _ => rfl, rfl, rfl, _, memRead_3⟩
  case flame3 => exact ⟨4, 0x3#4, 3#8, fun _ => rfl, rfl, rfl, _, memRead_4⟩
  case flame4 => exact ⟨5, 0x3#4, 4#8, fun _ => rfl, rfl, rfl, _, memRead_5⟩
  case flame5 => exact ⟨6, 0x3#4, 5#8, fun _ => rfl, rfl, rfl, _, memRead_6⟩
  case fan0 => exact ⟨7, 0x2#4, 0#8, fun _ => rfl, rfl, rfl, _, memRead_7⟩
  case fan1 => exact ⟨8, 0x2#4, 1#8, fun _ => rfl, rfl, rfl, _, memRead_8⟩
  case fan2 => exact ⟨9, 0x2#4, 2#8, fun _ => rfl, rfl, rfl, _, memRead_9⟩
  case fan3 => exact ⟨10, 0x2#4, 3#8, fun _ => rfl, rfl, rfl, _, memRead_10⟩
  case aux10 => exact ⟨11, 0x4#4, 0#8, fun _ => rfl, rfl, rfl, _, memRead_11⟩
  case aux11 => exact ⟨12, 0x4#4, 1#8, fun _ => rfl, rfl, rfl, _, memRead_12⟩
  case aux12 => exact ⟨13, 0x4#4, 2#8, fun _ => rfl, rfl, rfl, _, memRead_13⟩
  case aux13 => exact ⟨14, 0x4#4, 3#8, fun _ => rfl, rfl, rfl, _, memRead_14⟩
  case aux20 => exact ⟨15, 0x5#4, 0#8, fun _ => rfl, rfl, rfl, _, memRead_15⟩
  case aux21 => exact ⟨16, 0x5#4, 1#8, fun _ => rfl, rfl, rfl, _, memRead_16⟩

/-- In `IDLE` the request for a row does what the row does where no sequence runs. -/
theorem exec_requestFor_row {w : BitVec 52} (hl : s.cfg.legal) (hi : s.st = .idle) (hw : encode i = .frame52 w) :
    exec (decodeReq (requestFor i)) s = exec i { s with seqid := .none, seqpc := 0#2 } := by
  obtain ⟨a, op, v, hrow, hreq, hlookup, c, hcode⟩ := row_of_encode hw
  have hrequest : exec (decodeReq (requestFor i)) s = .next (startTx c { s with seqid := .none, seqpc := 0#2 }) := by
    rw [hreq, exec_decodeReq, request_idle op v hl hi, dispatch_hit (hlookup.trans hcode)]
  rw [hrequest, hrow]
  exact (command_starts (s := { s with seqid := .none, seqpc := 0#2 }) hl (canStart_iff.mpr (.inl hi)) hcode).symm

/-- A table word with the bytes of a well-formed instruction makes the next step run the request for it. -/
theorem step_withFetchWord (hl : s.cfg.legal) (hwf : i.wellFormed = true) {nbits w : Nat}
    (hbytes : encodeBytes i = natToBytes ((nbits + 7) / 8) w) :
    step (s.withFetchWord nbits w) = exec (decodeReq (requestFor i)) (ended { used s with rfOut := false }) := by
  rw [withFetchWord_encodeBytes s hwf hbytes.symm, step_withRequest hl]

/-- Settles O34: the placed request of a request decodes to it, and that of a row reaches the row. -/
theorem stepRunsThePlacedWord : Obligations.StepRunsThePlacedWord := by
  intro s i hl hwf ready
  refine ⟨fun w hw => ?request, fun w hw => ?row⟩
  case request =>
    have hdecode : decode (.req12 w) = .ok i := hw ▸ decode_encode i hwf
    have hbytes : encodeBytes i = natToBytes 2 w.toNat := congrArg CodeWord.bytes hw
    rw [step_withFetchWord hl hwf hbytes, requestFor_of_encode hw, Except.ok.inj hdecode]
  case row =>
    have hbytes : encodeBytes i = natToBytes 7 w.toNat := congrArg CodeWord.bytes hw
    rw [step_withFetchWord hl hwf hbytes]
    exact exec_requestFor_row hl rfl hw

end Sys2Proof.Machine

/-! PROOF. The command table (40_command_table.md): its codes and keys tell the rows apart, a row is reached by its
request, and a request that finds no row leaves no trace (43_public_operations.md R229). -/

namespace Sys2Proof.Machine

open Sys2Proof.Statements

variable {s : State} {op : BitVec 4} {v : Byte}

/-- Settles O10: a comparison of the seventeen rows. -/
theorem codesAndKeysIdentifyRows : Obligations.CodesAndKeysIdentifyRows :=
  ⟨by decide, by decide, by decide⟩

/-- Settles O29: both sides start the code at the ROM address of the row, for no sequence. -/
theorem rowsAreReachedByTheirRequests : Obligations.RowsAreReachedByTheirRequests := fun _ _ _ hready hw =>
  exec_requestFor_row hready.left hready.right hw

theorem accepts_iff : s.accepts = true ↔ s.inputs.rst = false ∧ s.inputs.reqValid = true ∧ s.st = .idle := by
  simp only [State.accepts, State.reqReady, Bool.and_eq_true, Bool.not_eq_true', beq_iff_eq]
  tauto

theorem romLookup_eq_none_iff : romLookup op v = none ↔ ∀ c, ¬ Hits op v c := by
  simp only [Option.eq_none_iff_forall_ne_some, ne_eq, romLookupHitsExactlyTheRanges op v]

/-- A request that is no hit and no sequence is a level without a row or a reserved operation (R181). -/
theorem dispatch_noHit (hmiss : ∀ c, ¬ Hits op v c) (h6 : op ≠ 0x6#4) (h7 : op ≠ 0x7#4) : dispatch op v s = s := by
  rcases Nat.lt_or_ge 5 op.toNat with h5 | h5
  · exact dispatch_reserved (by bv_omega)
  · exact dispatch_miss h5 (romLookup_eq_none_iff.mpr hmiss)

/-- Settles O38: the accepting tick dispatches the request after using up the inputs, and the dispatch changes nothing. -/
theorem missesLeaveNoTrace : Obligations.MissesLeaveNoTrace := by
  intro s hl haccepts hmiss h6 h7
  obtain ⟨hr, hv, hi⟩ := accepts_iff.mp haccepts
  have hstep : step s = .next (used s) := by
    rw [step_dispatch hl hr hi hv, dispatch_noHit hmiss h6 h7]
    rfl
  have hidle : (used s).busy = false := by simp [State.busy, used, hi]
  exact ⟨hstep, hidle, rfl⟩

end Sys2Proof.Machine

/-! PROOF. The arithmetic of the encoder (41_frame_encoder.md R150 to R154): its one addition modulo 256, which
subtraction undoes, and its one complement. -/

namespace Sys2Proof.Machine

open Sys2Proof.Statements

/-! The addition. -/

theorem encodeByte_toNat (k c : Byte) : (encodeByte k c).toNat = (c.toNat + k.toNat + 255) % 256 := by
  rw [encodeByte, BitVec.toNat_sub, BitVec.toNat_add, BitVec.toNat_ofNat]
  omega

theorem decodeByte_encodeByte (k c : Byte) : decodeByte k (encodeByte k c) = c := by
  rw [encodeByte, decodeByte, sub_right_comm, sub_add_cancel, add_sub_cancel_right]

theorem encodeByte_decodeByte (k e : Byte) : encodeByte k (decodeByte k e) = e := by
  rw [encodeByte, decodeByte, add_right_comm, sub_add_cancel, add_sub_cancel_right]

/-- A byte and its encoding give the calibration byte: the encoding adds `K` to the byte as it adds the byte to `K`. -/
theorem eq_of_encodeByte (k c : Byte) : k = encodeByte k c - c + 1#8 := by
  have hcomm : encodeByte k c = encodeByte c k := congrArg (· - 1#8) (add_comm c k)
  rw [hcomm]
  exact (decodeByte_encodeByte c k).symm

/-- Settles O14: over the integers, taking 1 away is adding 255 modulo 256. -/
theorem encodeAddsKLessOne : Obligations.EncodeAddsKLessOne := by
  intro k c
  have hnat := encodeByte_toNat k c
  exact ⟨by omega, hnat⟩

/-- Settles O15: `Encode` and `Decode` undo each other, and one pair gives `K`. -/
theorem encodeIsABijection : Obligations.EncodeIsABijection := fun k c e =>
  ⟨decodeByte_encodeByte k c, encodeByte_decodeByte k e, fun h => h ▸ eq_of_encodeByte k c⟩

/-! The complement. -/

theorem invByte_toNat (e : Byte) : (invByte e).toNat = 255 - e.toNat :=
  BitVec.toNat_not

theorem toNat_add_toNat_invByte (e : Byte) : e.toNat + (invByte e).toNat = 255 := by
  have hbyte : e.toNat < 256 := e.isLt
  rw [invByte_toNat]
  omega

theorem xor_invByte (e : Byte) : e ^^^ invByte e = 0xFF#8 := by
  have hnot : invByte e = e ^^^ 0xFF#8 := BitVec.xor_allOnes.symm
  rw [hnot, ← BitVec.xor_assoc, BitVec.xor_self, BitVec.zero_xor]

theorem invByte_invByte (e : Byte) : invByte (invByte e) = e :=
  BitVec.not_not

theorem invByte_getLsbD (e : Byte) {n : Nat} (h : n < 8) : (invByte e).getLsbD n = !e.getLsbD n := by
  simp [invByte, h]

/-- At each position exactly one of a byte and its complement has a 1 (R154). -/
theorem popLow_add_popLow_invByte (e : Byte) {n : Nat} (h : n ≤ 8) : popLow e n + popLow (invByte e) n = n := by
  induction n with
  | zero => rfl
  | succ n ih =>
    have hlow := ih (by omega)
    have hbit : (e.getLsbD n).toNat + ((invByte e).getLsbD n).toNat = 1 := by
      rw [invByte_getLsbD e (by omega)]
      cases e.getLsbD n <;> rfl
    rw [popLow, popLow]
    omega

theorem pop_add_pop_invByte (e : Byte) : pop e + pop (invByte e) = 8 :=
  popLow_add_popLow_invByte e (Nat.le_refl 8)

/-- Settles O16: in a frame the complement is taken of the encoded code, and the last segment loaded is `Inv` of the
latched one. -/
theorem lastSegmentsAreComplements : Obligations.LastSegmentsAreComplements := by
  refine ⟨fun cfg c => ?listed, fun cfg c e => rfl, fun e => ?bytes⟩
  case listed =>
    exact ⟨encodeByte cfg.k c, _, rfl, rfl, rfl, rfl, toNat_add_toNat_invByte _, xor_invByte _, pop_add_pop_invByte _⟩
  case bytes =>
    exact ⟨invByte_toNat e, xor_invByte e, invByte_invByte e, pop_add_pop_invByte e⟩

end Sys2Proof.Machine

/-! PROOF. The tick in which a phase ends (42_transmitter.md R186 to R193), in the words of the statements: a bit
begins, a wait is loaded, a transmission starts. -/

namespace Sys2Proof.Machine

open Sys2Proof.Statements

variable {s : State} {p : Phase} {op : BitVec 4} {v c : Byte}

/-! The end of each phase, by its cases. -/

/-- In the last tick of a phase the inputs are used up and the phase ends, in the way `f` of that phase (R180, R185). -/
theorem step_phaseEnds {f : State → State} (h : PhaseEnds s p) (hp : p ≠ .idle)
    (hend : ∀ {x : State}, x.st = p → phaseEnd x = f x) : step s = .next (f (used s)) := by
  obtain ⟨hl, hr, hst, hlast⟩ := h
  rw [step_busy hl hr (hst ▸ hp), timerTick_ends (s := s.advance) hlast, hend (x := s.advance) hst]
  rfl

theorem endLow_bit (h : 0 < s.nbit.toNat) :
    endLow s = bitBegins (s.sh <<< 1) { s with nbit := s.nbit - 1#3 } := by
  rw [endLow, if_pos (show 0#3 < s.nbit by bv_omega)]
  rfl

theorem endLow_pause (h : s.nbit = 0#3) :
    endLow s = { s with st := .sgap, tcnt := ticks (segPause s.cfg s.seg) } := by
  rw [endLow, if_neg (by rw [h]; decide)]

/-- A body segment is loaded whole (R183). -/
theorem loadedShift_body (cfg : Config) {i : BitVec 3} (c e : Byte) (hi : i ≠ 0#3) :
    loadedShift cfg i c e = segVal cfg i c e := by
  rw [loadedShift, if_neg hi]

theorem endSgap_segment (h : s.seg.toNat < 6) :
    endSgap s = bitBegins (segVal s.cfg (s.seg + 1#3) s.cmd s.enc) { s with seg := s.seg + 1#3, nbit := 7#3 } := by
  have hbody : s.seg + 1#3 ≠ 0#3 := by bv_omega
  rw [endSgap, if_pos (show s.seg < 6#3 by bv_omega), loadSeg, if_neg hbody, loadedShift_body _ _ _ hbody]
  rfl

theorem endSgap_idle (hseg : 6 ≤ s.seg.toNat) (hrep : s.rep.toNat < 9) :
    endSgap s = loadWait s.cfg.msgPause { s with st := .mgap } := by
  rw [endSgap, if_neg (show ¬ s.seg < 6#3 by bv_omega), if_pos (show s.rep < 9#4 by bv_omega)]

theorem endSgap_done (hseg : 6 ≤ s.seg.toNat) (hrep : 9 ≤ s.rep.toNat) :
    endSgap s = txDone s.seqid s.seqpc.toNat s := by
  rw [endSgap, if_neg (show ¬ s.seg < 6#3 by bv_omega), if_neg (show ¬ s.rep < 9#4 by bv_omega)]

/-- A transmission with a step of its sequence left ends in the wait of the sequence (R191). -/
theorem txDone_wait (hid : s.seqid ≠ .none) (hpc : s.seqpc.toNat < s.seqid.last) :
    txDone s.seqid s.seqpc.toNat s = loadWait s.cfg.seqWait { s with st := .qgap } := by
  rw [txDone_more hid hpc, BitVec.ofNat_toNat, BitVec.setWidth_eq]

theorem endMgap_chunk (h : 0 < s.rem.toNat) : endMgap s = loadWait s.rem.toNat s := by
  rw [endMgap, if_pos (show 0#20 < s.rem by bv_omega)]

theorem endMgap_frame (h : s.rem = 0#20) :
    endMgap s = bitBegins 0xA0#8 { s with rep := s.rep + 1#4, seg := 0#3, nbit := 3#3 } := by
  rw [endMgap, if_neg (by rw [h]; decide), loadedShift_header, loadSeg, loadedShift_header]
  rfl

theorem endQgap_chunk (h : 0 < s.rem.toNat) : endQgap s = loadWait s.rem.toNat s := by
  rw [endQgap, if_pos (show 0#20 < s.rem by bv_omega)]

/-- After the wait of a sequence its next step starts, if the step has a code (R192, R193). -/
theorem endQgap_step (h : s.rem = 0#20) (hc : seqLookup s.seqid (s.seqpc.toNat + 1) = some c) :
    endQgap s = firstTick c s.seqid (BitVec.ofNat 2 (s.seqpc.toNat + 1)) s := by
  rw [endQgap, if_neg (by rw [h]; decide), seqStep_hit hc, startTx_eq_firstTick]
  rfl

/-! The obligations about them. -/

/-- Settles O40: `BitPause` is the pause of the header or of the body. -/
theorem highEndsInTheBitPause : Obligations.HighEndsInTheBitPause := by
  intro s h
  exact step_phaseEnds h (by decide) phaseEnd_high

/-- Settles O41: the two cases of R187. -/
theorem bitPauseEndsInTheNextBitOrTheSegmentPause : Obligations.BitPauseEndsInTheNextBitOrTheSegmentPause := by
  intro s h
  rw [step_phaseEnds h (by decide) phaseEnd_low]
  refine ⟨fun hbits => ?next, fun hbits => ?pause⟩
  case next => rw [endLow_bit (s := used s) hbits]; rfl
  case pause => rw [endLow_pause (s := used s) hbits]; rfl

/-- Settles O42: the three cases of R188, the last one with the two of R191. -/
theorem segmentPauseEndsInWhatFollows : Obligations.SegmentPauseEndsInWhatFollows := by
  intro s h
  rw [step_phaseEnds h (by decide) phaseEnd_sgap]
  refine ⟨fun i v hv hseg => ?segment, fun hseg hrep => ?idle, fun hseg hrep => ?done⟩
  case segment =>
    have hi : i < 6 ∧ segVal s.cfg (BitVec.ofNat 3 i + 1#3) s.cmd s.enc = v := by
      simp only [List.mem_cons, Prod.mk.injEq, List.not_mem_nil, or_false] at hv
      rcases hv with ⟨rfl, rfl⟩ | ⟨rfl, rfl⟩ | ⟨rfl, rfl⟩ | ⟨rfl, rfl⟩ | ⟨rfl, rfl⟩ | ⟨rfl, rfl⟩ <;>
        exact ⟨by decide, rfl⟩
    obtain ⟨hlt, rfl⟩ := hi
    rw [endSgap_segment (s := used s) (by rw [show (used s).seg = _ from hseg, BitVec.toNat_ofNat]; omega)]
    simp only [used, hseg, BitVec.ofNat_add]
  case idle => rw [endSgap_idle (s := used s) hseg hrep]; rfl
  case done =>
    rw [endSgap_done (s := used s) hseg hrep]
    refine ⟨fun hmore => ?wait, fun hlast => ?finish⟩
    case wait =>
      have hleft : s.seqid ≠ .none ∧ s.seqpc.toNat < s.seqid.last := by
        rcases hmore with ⟨hid, hpc⟩ | ⟨hid, hpc⟩ <;> exact ⟨by simp [hid], by rwa [hid]⟩
      rw [txDone_wait (s := used s) hleft.1 hleft.2]
      rfl
    case finish =>
      have hnone : s.seqid = .none ∨ s.seqid.last ≤ s.seqpc.toNat := by
        rcases hlast with hid | ⟨hid, hpc⟩ | ⟨hid, hpc⟩
        · exact .inl hid
        · exact .inr (by rwa [hid])
        · exact .inr (by rwa [hid])
      exact congrArg Host.Outcome.next (txDone_over hnone)

/-- Settles O43: the two cases of R189. -/
theorem messageIdleEndsInTheNextFrame : Obligations.MessageIdleEndsInTheNextFrame := by
  intro s h
  rw [step_phaseEnds h (by decide) phaseEnd_mgap]
  refine ⟨fun hrem => ?chunk, fun hrem => ?frame⟩
  case chunk => rw [endMgap_chunk (s := used s) hrem]; rfl
  case frame => rw [endMgap_frame (s := used s) hrem]; rfl

/-- Settles O44: the two cases of R192; the steps and their codes are those of `seqLookup_steps`. -/
theorem sequenceWaitEndsInTheNextStep : Obligations.SequenceWaitEndsInTheNextStep := by
  intro s h
  rw [step_phaseEnds h (by decide) phaseEnd_qgap]
  refine ⟨fun hrem => by rw [endQgap_chunk (s := used s) hrem]; rfl, fun hrem => ?_⟩
  have hnext : ∀ id pc c, s.seqid = id → s.seqpc = pc → seqLookup id (pc.toNat + 1) = some c →
      endQgap (used s) = firstTick c id (BitVec.ofNat 2 (pc.toNat + 1)) (used s) := by
    rintro id pc c rfl rfl hc
    exact endQgap_step (s := used s) hrem hc
  obtain ⟨-, hfan, hflame, -, hoff⟩ := seqLookup_steps
  exact ⟨fun hid hpc => congrArg Host.Outcome.next (hnext _ _ _ hid hpc hfan),
    fun hid hpc => congrArg Host.Outcome.next (hnext _ _ _ hid hpc hflame),
    fun hid hpc => congrArg Host.Outcome.next (hnext _ _ _ hid hpc hoff)⟩

end Sys2Proof.Machine

/-! PROOF. The requests that start a transmission (42_transmitter.md R181, R193; 43_public_operations.md R220 to
R227). -/

namespace Sys2Proof.Machine

open Sys2Proof.Statements

variable {s : State} {op : BitVec 4} {v c : Byte}

/-- A request that hits starts the transmission of its code, for no sequence. -/
theorem request_hit (h : Ready s) (hc : romLookup op v = some c) :
    request op v s = .next (firstTick c .none 0#2 s) := by
  rw [request_idle op v h.1 h.2, dispatch_hit hc, startTx_eq_firstTick]
  rfl

/-- A request of a family whose lookup is a range: its code inside, nothing outside. -/
theorem request_range {inside : Prop} [Decidable inside] (h : Ready s) (hop : op.toNat ≤ 5)
    (hlookup : romLookup op v = if inside then some c else none) :
    request op v s = .next (if inside then firstTick c .none 0#2 s else s) := by
  split
  next hin => exact request_hit h (by rw [hlookup, if_pos hin])
  next hout => rw [request_idle op v h.1 h.2, dispatch_miss hop (by rw [hlookup, if_neg hout])]

/-- Settles O23: the lookups of the two power requests ignore `req_val`. -/
theorem powerRequestsStartTheirCode : Obligations.PowerRequestsStartTheirCode := fun _ v h =>
  ⟨request_hit h (romLookup_pwrOn v), request_hit h (romLookup_pwrOff v)⟩

/-- Settles O24: the lookups of the four families are ranges. -/
theorem levelRequestsStartTheirCodeOrNothing : Obligations.LevelRequestsStartTheirCodeOrNothing := fun _ n h =>
  ⟨request_range h (by decide) (romLookup_fan n), request_range h (by decide) (romLookup_flame n),
    request_range h (by decide) (romLookup_aux1 n), request_range h (by decide) (romLookup_aux2 n)⟩

/-- Settles O25: the dispatch of a sequence is its step 0. -/
theorem sequenceRequestsStartStepZero : Obligations.SequenceRequestsStartStepZero := by
  intro s v h
  rw [exec_seqStart, exec_seqStop, request_idle _ v h.1 h.2, request_idle _ v h.1 h.2, dispatch_start, dispatch_stop,
    startTx_eq_firstTick, startTx_eq_firstTick]
  exact ⟨rfl, rfl⟩

end Sys2Proof.Machine

/-! PROOF. The waveform functions (42_transmitter.md R171 to R174, R178): what a segment, a frame, a long wait and a
transmission are made of, and how long they last. -/

namespace Sys2Proof.Machine

variable {m d : Nat}

/-! A segment. -/

/-- The bits of a segment are sent from the most significant. -/
theorem emitBits_eq_flatMap (cfg : Config) (v : Byte) (p n : Nat) :
    emitBits cfg v p n = (lowBits n v).flatMap fun b => emitBit cfg b p := by
  induction n with
  | zero => rfl
  | succ n ih => rw [emitBits, ih, lowBits_succ, List.flatMap_cons]

/-- A segment lasts as long as its pulses and its pauses. -/
theorem dur_emitSegment (cfg : Config) (v : Byte) (n p d : Nat) :
    dur (emitSegment cfg v n p d) = ((lowBits n v).map (highTime cfg)).sum + n * p + d := by
  have hbits : dur (emitBits cfg v p n) = ((lowBits n v).map (highTime cfg)).sum + n * p := by
    induction n with
    | zero => simp [emitBits]
    | succ n ih =>
      simp only [emitBits, emitBit, dur_append, dur_cons, dur_nil, ih, lowBits_succ, List.map_cons, List.sum_cons,
        Nat.succ_mul]
      omega
  rw [emitSegment, dur_append, hbits]
  rfl

/-- Pulses last `T1` for each 1 and `T0` for each 0. -/
theorem sum_highTime (cfg : Config) (bits : List Bool) :
    (bits.map (highTime cfg)).sum = bits.count true * cfg.t1 + bits.count false * cfg.t0 := by
  induction bits with
  | nil => simp
  | cons b bits ih => cases b <;> simp [highTime, ih, Nat.succ_mul] <;> omega

theorem count_false_eq (bits : List Bool) : bits.count false = bits.length - bits.count true := by
  have := List.count_true_add_count_false bits
  omega

@[simp] theorem lowBits_length {w : Nat} (n : Nat) (v : BitVec w) : (lowBits n v).length = n := by
  simp [lowBits]

@[simp] theorem count_true_lowBits (n : Nat) (v : Byte) : (lowBits n v).count true = popLow v n := by
  induction n with
  | zero => rfl
  | succ n ih => rw [lowBits_succ, List.count_cons, ih, popLow]; cases v.getLsbD n <;> simp [Nat.add_comm]

/-- Settles O18: the bits of a segment are `lowBits`, whose 1 bits are counted by `popLow`. -/
theorem segmentIsItsBitsAndItsPause : Obligations.SegmentIsItsBitsAndItsPause := by
  intro cfg v n p d _
  refine ⟨?_, by rw [dur_emitSegment, sum_highTime, count_false_eq, lowBits_length, count_true_lowBits]⟩
  rw [emitSegment, emitBits_eq_flatMap, lowBits, List.flatMap_map]
  rfl

/-! A frame. -/

/-- The bits of a frame in the order in which they are sent (R66). -/
def sentBits (cfg : Config) (c : Byte) : List Bool :=
  (frameSegments cfg c).flatMap fun p => lowBits p.2 p.1

@[simp] theorem sentBits_length (cfg : Config) (c : Byte) : (sentBits cfg c).length = 52 := by
  simp [sentBits, frameSegments]

/-- The header holds two 1 bits, and the last two segments eight together (R154, R178). -/
theorem count_true_sentBits (cfg : Config) (c : Byte) :
    (sentBits cfg c).count true = pop cfg.start0 + pop cfg.start1 + pop cfg.start2 + pop c + 10 := by
  have hheader : popLow 0b1010#8 4 = 2 := by decide
  have hpair := pop_add_pop_invByte (encodeByte cfg.k c)
  simp only [pop] at hpair ⊢
  simp only [sentBits, frameSegments, List.flatMap_cons, List.flatMap_nil, List.count_append, count_true_lowBits,
    List.count_nil, hheader]
  omega

/-- The pulses of a frame are `T1` long for each 1 and `T0` long for each 0 (R96). -/
theorem pulses_emitFrame_sentBits (cfg : Config) (c : Byte) :
    pulses (emitFrame cfg c) = (sentBits cfg c).map (highTime cfg) :=
  pulses_emitFrame cfg c

/-- The long ones among the pulses of bits are the 1 bits. -/
theorem count_t1_highTime {cfg : Config} (h : cfg.t0 < cfg.t1) (bits : List Bool) :
    (bits.map (highTime cfg)).count cfg.t1 = bits.count true := by
  induction bits with
  | nil => rfl
  | cons b bits ih => cases b <;> simp [highTime, ih, h.ne]

/-- Counting runs that are high and `d` ticks long is counting pulses of `d` ticks. -/
theorem length_filter_high (w : Waveform) (d : Nat) :
    (w.filter fun r => r.1 && r.2 == d).length = (pulses w).count d := by
  rw [pulses, List.count, List.countP_map, List.countP_filter, List.countP_eq_length_filter]
  simp only [Function.comp_apply, Bool.and_comm]

/-- A frame lasts as long as its pulses and its pauses (R178). -/
theorem dur_emitFrame (cfg : Config) (c : Byte) :
    dur (emitFrame cfg c) = ((sentBits cfg c).map (highTime cfg)).sum +
      4 * cfg.hdrBitPause + cfg.hdrSegPause + 48 * cfg.bodyBitPause + 6 * cfg.bodySegPause := by
  simp only [emitFrame, dur_append, dur_emitSegment, sentBits, frameSegments, List.flatMap_cons, List.flatMap_nil,
    List.map_append, List.sum_append, List.append_nil]
  omega

/-- Settles O19: a frame has 52 bits, and as many 1 bits as `count_true_sentBits` says. -/
theorem framePulsesAndDuration : Obligations.FramePulsesAndDuration := by
  intro cfg c hl n
  have hones : (sentBits cfg c).count true = n + 10 := count_true_sentBits cfg c
  have hall : (pulses (emitFrame cfg c)).length = 52 := by simp [pulses_emitFrame_sentBits]
  have hzeros : 52 - (n + 10) = 42 - n := by omega
  refine ⟨by simpa [pulses] using hall, ?long, ?duration⟩
  case long => rw [length_filter_high, pulses_emitFrame_sentBits, count_t1_highTime hl.1, hones]
  case duration => rw [dur_emitFrame, sum_highTime, count_false_eq, hones, sentBits_length, hzeros]

/-! A long wait. -/

/-- Induction over the chunks of a wait: the last one, or a full one and those of the rest (R173). -/
theorem chunks_induction {motive : Nat → List Nat → Prop} (hm : 1 ≤ m)
    (last : ∀ d, 1 ≤ d → d ≤ m → motive d [d])
    (full : ∀ d, m < d → motive (d - m) (chunks m (d - m)) → motive d (m :: chunks m (d - m))) (d : Nat) (hd : 1 ≤ d) :
    motive d (chunks m d) := by
  induction d using Nat.strong_induction_on with
  | h d ih =>
    rcases Nat.lt_or_ge m d with h | h
    · rw [chunks_long hm h]
      exact full d h (ih (d - m) (by omega) (by omega))
    · rw [chunks_short h]
      exact last d hd h

theorem chunks_sum (hm : 1 ≤ m) (hd : 1 ≤ d) : (chunks m d).sum = d := by
  refine chunks_induction (motive := fun d l => l.sum = d) hm (fun d _ _ => ?last) (fun d h ih => ?full) d hd
  case last => exact List.sum_singleton
  case full => rw [List.sum_cons, ih]; omega

theorem chunks_bounds (hm : 1 ≤ m) (hd : 1 ≤ d) : ∀ x ∈ chunks m d, 1 ≤ x ∧ x ≤ m := by
  refine chunks_induction (motive := fun _ l => ∀ x ∈ l, 1 ≤ x ∧ x ≤ m) hm (fun d h1 h2 => ?last)
    (fun d _ ih => ?full) d hd
  case last => simpa using ⟨h1, h2⟩
  case full => exact List.forall_mem_cons.mpr ⟨⟨hm, le_rfl⟩, ih⟩

theorem chunks_ne_nil (hm : 1 ≤ m) (hd : 1 ≤ d) : chunks m d ≠ [] := by
  intro hnil
  have := chunks_sum hm hd
  rw [hnil, List.sum_nil] at this
  omega

theorem chunks_dropLast (hm : 1 ≤ m) (hd : 1 ≤ d) : ∀ x ∈ (chunks m d).dropLast, x = m := by
  refine chunks_induction (motive := fun _ l => ∀ x ∈ l.dropLast, x = m) hm (fun d _ _ => ?last)
    (fun d h ih => ?full) d hd
  case last => simp
  case full =>
    rw [List.dropLast_cons_of_ne_nil (chunks_ne_nil hm (by omega))]
    exact List.forall_mem_cons.mpr ⟨rfl, ih⟩

/-- There are `ceil(D / MAX_WAIT)` chunks. -/
theorem chunks_length (hm : 1 ≤ m) (hd : 1 ≤ d) : (chunks m d).length = (d + m - 1) / m := by
  refine chunks_induction (motive := fun d l => l.length = (d + m - 1) / m) hm (fun d h1 h2 => ?last)
    (fun d h ih => ?full) d hd
  case last =>
    have : (d + m - 1) / m = 1 := Nat.div_eq_of_lt_le (by omega) (by omega)
    rw [this]
    rfl
  case full =>
    have hshift : d + m - 1 = (d - m + m - 1) + m := by omega
    rw [List.length_cons, ih, hshift, Nat.add_div_right _ (by omega)]

theorem levels_lows (l : List Nat) : levels (l.map fun d => (false, d)) = List.replicate l.sum false := by
  induction l with
  | nil => rfl
  | cons d l ih => simp only [List.map_cons, levels, ih, List.sum_cons, List.replicate_add]

variable {cfg : Config}

/-- On the pin the chunks are one low run (R173). -/
theorem levels_gap (hm : 1 ≤ cfg.maxWait) (hd : 1 ≤ d) : levels (gap cfg d) = levels [(false, d)] := by
  rw [gap, levels_lows, chunks_sum hm hd]
  simp [levels]

theorem dur_gap (hm : 1 ≤ cfg.maxWait) (hd : 1 ≤ d) : dur (gap cfg d) = d := by
  rw [gap, dur_lows, chunks_sum hm hd]

/-- Settles O21: each law by induction over the chunks; the last one because only the levels count on the pin. -/
theorem chunksSumToTheWait : Obligations.ChunksSumToTheWait := by
  intro cfg d hm hd
  have hone : norm [(false, d)] = [(false, d)] := by
    rw [norm, norm, pushRun, if_neg (by simp only; omega)]
  exact ⟨chunks_sum hm hd, chunks_bounds hm hd, chunks_dropLast hm hd, chunks_length hm hd,
    (norm_eq_of_levels (levels_gap hm hd)).trans hone⟩

/-! A transmission. -/

theorem repeatFrames_eq_flatten (cfg : Config) (c : Byte) (n : Nat) :
    repeatFrames cfg c n = (List.replicate n (emitFrame cfg c ++ gap cfg cfg.msgPause)).flatten ++ emitFrame cfg c := by
  induction n with
  | zero => rfl
  | succ n ih => rw [repeatFrames, ih, List.replicate_succ, List.flatten_cons, List.append_assoc (_ ++ _)]

theorem dur_repeatFrames (c : Byte) (hm : 1 ≤ cfg.maxWait) (hp : 1 ≤ cfg.msgPause) (n : Nat) :
    dur (repeatFrames cfg c n) = (n + 1) * dur (emitFrame cfg c) + n * cfg.msgPause := by
  induction n with
  | zero => rw [repeatFrames]; omega
  | succ n ih =>
    rw [repeatFrames, dur_append, dur_append, ih, dur_gap hm hp]
    ring

/-- Settles O22: `REPEAT` is ten. -/
theorem transmissionIsTenFrames : Obligations.TransmissionIsTenFrames := by
  intro cfg c hl
  obtain ⟨-, ⟨-, -, -, -, -, hmsg, hmax, -⟩, -⟩ := hl
  exact ⟨repeatFrames_eq_flatten cfg c 9, dur_repeatFrames c hmax hmsg 9⟩

end Sys2Proof.Machine

/-! PROOF. The timer and the long waits (42_transmitter.md R185, R190), for every host that does not reset. -/

namespace Sys2Proof.Machine

open Sys2Proof.Statements

variable {s u v : State} {P : State → Prop} {w w' : Waveform} {d n : Nat}

/-! The timer. -/

/-- The state `j` ticks on in the same phase. -/
def State.counted (s : State) (j : Nat) : State :=
  { s with tcnt := s.tcnt - BitVec.ofNat 14 j, host := s.host.drop j }

theorem counted_zero (s : State) : s.counted 0 = s := by
  simp [State.counted]

/-- The state after the first tick, counted on. -/
theorem counted_succ (s : State) (j : Nat) : (s.counted 1).counted j = s.counted (j + 1) := by
  have htcnt : s.tcnt - 1#14 - BitVec.ofNat 14 j = s.tcnt - BitVec.ofNat 14 (j + 1) := by
    rw [BitVec.ofNat_add, BitVec.add_comm, sub_add_eq_sub_sub]
  have hhost : (s.host.drop 1).drop j = s.host.drop (j + 1) := by rw [List.drop_drop, Nat.add_comm]
  simp only [State.counted, htcnt, hhost]

theorem counted_noReset (h : s.noReset) (j : Nat) : (s.counted j).noReset :=
  fun p hp => h p (List.mem_of_mem_drop hp)

theorem step_counts (hl : s.cfg.legal) (hr : s.noReset) (hi : s.st ≠ .idle) (h : 1 < s.tcnt.toNat) :
    step s = .next (s.counted 1) := by
  rw [step_busy hl (noReset_rst hr) hi, timerTick_counts (s := s.advance) (by rw [advance_tcnt]; bv_omega)]
  simp [State.counted, State.advance]

theorem observe_counted (n : Nat) (hl : s.cfg.legal) (hr : s.noReset) (hi : s.st ≠ .idle) (hn : n < s.tcnt.toNat) :
    observe n s = some ((List.range n).map fun j => s.counted (j + 1)) := by
  induction n generalizing s with
  | zero => rfl
  | succ n ih =>
    have hleft : n < (s.counted 1).tcnt.toNat := by
      show n < (s.tcnt - 1#14).toNat
      bv_omega
    rw [observe_next (step_counts hl hr hi (by omega)) (ih hl (counted_noReset hr 1) hi hleft), List.range_succ_eq_map]
    simp only [counted_succ, List.map_cons, List.map_map, Function.comp_def, Nat.succ_eq_add_one]

/-- Settles O39: the states are those that count down. -/
theorem timerCountsThePhase : Obligations.TimerCountsThePhase := fun _ n hl hr hi hn =>
  observe_counted n hl hr hi hn

/-- The ticks of a phase before its last ones, as a run. -/
theorem Runs.count (n : Nat) (hl : s.cfg.legal) (hr : s.noReset) (hi : s.st ≠ .idle) (hn : n < s.tcnt.toNat)
    (hp : ∀ j, P (s.counted j)) : Runs P s [(s.rfOut, n)] (s.counted n) := by
  refine ⟨(List.range n).map s.counted, _, observe_counted n hl hr hi hn, ?_, ?_, by simpa using fun j _ => hp j⟩
  · calc s :: (List.range n).map (fun j => s.counted (j + 1))
        = (List.range (n + 1)).map s.counted := by
          rw [List.range_succ_eq_map, List.map_cons, counted_zero, List.map_map]; rfl
      _ = (List.range n).map s.counted ++ [s.counted n] := by rw [List.range_succ, List.map_append]; rfl
  · have hpin : State.rfOut ∘ s.counted = fun _ => s.rfOut := rfl
    rw [List.map_map, hpin, List.map_const', List.length_range, levels, levels, List.append_nil]

/-! Runs for every host. -/

/-- Whatever a host without reset does, from `s` on the pin shows `w`, tick for tick, in states that have `P`; the state
after them is `u`. What `s` and `u` themselves hold as `host` does not count (42_transmitter.md R176). -/
def Shows (P : State → Prop) (s : State) (w : Waveform) (u : State) : Prop :=
  ∀ h : List Inputs, (∀ p ∈ h, p.rst = false) → Runs P { s with host := h } w { u with host := h.drop (dur w) }

/-- With the host that `s` has. -/
theorem Shows.runs (h : Shows P s w u) (hr : s.noReset) : Runs P s w { u with host := s.host.drop (dur w) } :=
  h s.host hr

theorem Shows.append (h : Shows P s w u) (h' : Shows P u w' v) : Shows P s (w ++ w') v := by
  intro l hl
  have hrest : ∀ p ∈ l.drop (dur w), p.rst = false := fun p hp => hl p (List.mem_of_mem_drop hp)
  have hruns := (h l hl).append (h' _ hrest)
  rwa [List.drop_drop, ← dur_append] at hruns

theorem Shows.of_levels (h : Shows P s w u) (he : levels w = levels w') : Shows P s w' u := by
  have hdur : dur w = dur w' := by rw [← levels_length, he, levels_length]
  intro l hl
  rw [← hdur]
  exact (h l hl).of_levels he

/-! The end of a phase does not look at the host. -/

theorem loadWait_withHost (d : Nat) (s : State) (h : List Inputs) :
    loadWait d { s with host := h } = { loadWait d s with host := h } := by
  unfold loadWait
  split <;> rfl

theorem txDone_withHost (id : SeqId) (pc : Nat) (s : State) (h : List Inputs) :
    txDone id pc { s with host := h } = { txDone id pc s with host := h } := by
  unfold txDone
  split
  · exact loadWait_withHost s.cfg.seqWait { s with st := .qgap, seqid := id, seqpc := BitVec.ofNat 2 pc } h
  · rfl

theorem seqStep_withHost (id : SeqId) (pc : Nat) (s : State) (h : List Inputs) :
    seqStep id pc { s with host := h } = { seqStep id pc s with host := h } := by
  unfold seqStep
  split
  · rfl
  · exact txDone_withHost id pc { s with seqid := id, seqpc := BitVec.ofNat 2 pc } h

theorem endSgap_withHost (s : State) (h : List Inputs) :
    endSgap { s with host := h } = { endSgap s with host := h } := by
  unfold endSgap
  split
  · rfl
  · split
    · exact loadWait_withHost s.cfg.msgPause { s with st := .mgap } h
    · exact txDone_withHost s.seqid s.seqpc.toNat s h

theorem phaseEnd_withHost (s : State) (h : List Inputs) :
    phaseEnd { s with host := h } = { phaseEnd s with host := h } := by
  obtain ⟨p, hst⟩ : ∃ p, s.st = p := ⟨_, rfl⟩
  cases p with
  | idle => rw [phaseEnd_idle hst, phaseEnd_idle (s := { s with host := h }) hst]
  | high => rw [phaseEnd_high hst, phaseEnd_high (s := { s with host := h }) hst]; rfl
  | low =>
    rw [phaseEnd_low hst, phaseEnd_low (s := { s with host := h }) hst]
    unfold endLow
    split <;> rfl
  | sgap => rw [phaseEnd_sgap hst, phaseEnd_sgap (s := { s with host := h }) hst, endSgap_withHost]
  | mgap =>
    rw [phaseEnd_mgap hst, phaseEnd_mgap (s := { s with host := h }) hst]
    unfold endMgap
    split
    · exact loadWait_withHost s.rem.toNat s h
    · rfl
  | qgap =>
    rw [phaseEnd_qgap hst, phaseEnd_qgap (s := { s with host := h }) hst]
    unfold endQgap
    split
    · exact loadWait_withHost s.rem.toNat s h
    · exact seqStep_withHost s.seqid (s.seqpc.toNat + 1) s h

/-- A phase shows the level of the pin for as many ticks as `tcnt` says, and then ends (R185). -/
theorem Shows.phase (hl : s.cfg.legal) (hi : s.st ≠ .idle) (hd : 1 ≤ d) (ht : s.tcnt.toNat = d)
    (hp : ∀ t h, P { s with tcnt := t, host := h }) :
    Shows P s [(s.rfOut, d)] (phaseEnd { s with tcnt := 1#14 }) := by
  intro l hr
  have hruns := Runs.phase (P := P) d { s with host := l } hl hr hi hd ht hp
  rwa [phaseEnd_withHost { s with tcnt := 1#14 } (l.drop d)] at hruns

/-! The long waits. -/

theorem not_idle_of_wait (hst : s.st = .mgap ∨ s.st = .qgap) : s.st ≠ .idle := by
  rcases hst with hst | hst <;> simp [hst]

/-- A chunk that is not the last ends in the next chunk (R189, R192). -/
theorem phaseEnd_chunk (hst : s.st = .mgap ∨ s.st = .qgap) (hrem : 0 < s.rem.toNat) :
    phaseEnd s = loadWait s.rem.toNat s := by
  rcases hst with hst | hst
  · rw [phaseEnd_mgap hst, endMgap_chunk hrem]
  · rw [phaseEnd_qgap hst, endQgap_chunk hrem]

/-- A load of a long wait writes both counters, so what they held does not count. -/
theorem loadWait_counters (d : Nat) (t : BitVec 14) (r : BitVec 20) (s : State) :
    loadWait d { s with tcnt := t, rem := r } = loadWait d s := by
  unfold loadWait
  split <;> rfl

/-- `rem` holds what a long wait still owes (R283). -/
theorem owed_toNat (h : d < 2 ^ 20) : (BitVec.ofNat 20 d).toNat = d := by
  rw [BitVec.toNat_ofNat, Nat.mod_eq_of_lt h]

/-- Settles O45: the first load is the first chunk, and what it leaves in `rem` is the wait for the other chunks. -/
theorem longWaitsLoadTheirChunks : Obligations.LongWaitsLoadTheirChunks := by
  intro s d hl hd hfit
  obtain ⟨-, ⟨-, -, -, -, -, -, hm, -⟩, -, hmax, -⟩ := id hl
  have hloads : ∀ n d, d ≤ n → 1 ≤ d → d < 2 ^ 20 → waitLoads n (loadWait d s) = chunks s.cfg.maxWait d := by
    intro n
    induction n with
    | zero => omega
    | succ n ih =>
      intro d hn hd hfit
      rcases Nat.lt_or_ge s.cfg.maxWait d with hlong | hshort
      · have hrem : (BitVec.ofNat 20 (d - s.cfg.maxWait)).toNat = d - s.cfg.maxWait := owed_toNat (by omega)
        have howed : 0#20 < BitVec.ofNat 20 (d - s.cfg.maxWait) := by
          rw [BitVec.lt_def, hrem]
          simpa using hlong
        rw [loadWait_long hlong, chunks_long hm hlong, waitLoads, if_pos howed, hrem, loadWait_counters,
          ih _ (by omega) (by omega) (by omega), ticks_toNat hmax]
      · rw [loadWait_short hshort, chunks_short hshort, waitLoads, if_neg (BitVec.lt_irrefl 0#20),
          ticks_toNat (hshort.trans hmax)]
  exact hloads d d le_rfl hd hfit

/-- A chunk that is not the last lasts its ticks and ends in the load of what is owed. -/
theorem Shows.chunk (hl : s.cfg.legal) (hst : s.st = .mgap ∨ s.st = .qgap) (hd : 1 ≤ d) (ht : s.tcnt.toNat = d)
    (hrem : 0 < s.rem.toNat) (hp : ∀ t h, P { s with tcnt := t, host := h }) :
    Shows P s [(s.rfOut, d)] (loadWait s.rem.toNat s) := by
  have hphase := Shows.phase hl (not_idle_of_wait hst) hd ht hp
  rwa [phaseEnd_chunk (s := { s with tcnt := 1#14 }) hst hrem, loadWait_counters _ _ _ s] at hphase

/-- The ticks of a long wait before its last one: the pin stays as it was (R190). -/
theorem Shows.waitRest (hl : s.cfg.legal) (hst : s.st = .mgap ∨ s.st = .qgap)
    (hp : ∀ t r h, P { s with tcnt := t, rem := r, host := h }) (hd : 1 ≤ d) (hfit : d < 2 ^ 20) :
    Shows P (loadWait d s) [(s.rfOut, d - 1)] { s with tcnt := 1#14, rem := 0#20 } := by
  obtain ⟨-, ⟨-, -, -, -, -, -, hm, -⟩, -, hmax, -⟩ := id hl
  have hi := not_idle_of_wait hst
  induction d using Nat.strong_induction_on with
  | h d ih =>
    rcases Nat.lt_or_ge s.cfg.maxWait d with hlong | hshort
    · have hrem : (BitVec.ofNat 20 (d - s.cfg.maxWait)).toNat = d - s.cfg.maxWait := owed_toNat (by omega)
      have hnext : loadWait (BitVec.ofNat 20 (d - s.cfg.maxWait)).toNat { s with
          tcnt := ticks s.cfg.maxWait, rem := BitVec.ofNat 20 (d - s.cfg.maxWait) } =
          loadWait (d - s.cfg.maxWait) s := by
        rw [hrem, loadWait_counters]
      have hchunk : Shows P (loadWait d s) [(s.rfOut, s.cfg.maxWait)] (loadWait (d - s.cfg.maxWait) s) := by
        rw [loadWait_long hlong, ← hnext]
        exact Shows.chunk hl hst hm (ticks_toNat hmax) (by simp only [hrem]; omega) fun _ _ => hp _ _ _
      apply (hchunk.append (ih (d - s.cfg.maxWait) (by omega) (by omega) (by omega))).of_levels
      have hsum : s.cfg.maxWait + (d - s.cfg.maxWait - 1) = d - 1 := by omega
      simp only [levels_append, levels, List.append_nil, List.replicate_append_replicate, hsum]
    · have htcnt : (ticks d).toNat = d := ticks_toNat (hshort.trans hmax)
      have hlast : ticks d - BitVec.ofNat 14 (d - 1) = 1#14 := by
        apply BitVec.eq_of_toNat_eq
        simp only [BitVec.toNat_sub, htcnt, BitVec.toNat_ofNat]
        omega
      rw [loadWait_short hshort, ← hlast]
      intro l hr
      exact Runs.count (s := { s with tcnt := ticks d, rem := 0#20, host := l }) (d - 1) hl hr hi
        (by simp only [htcnt]; omega) fun _ => hp _ _ _

/-- A long wait: the pin stays as it was for all of it, and then its last chunk ends (R190). -/
theorem Shows.longWait (hl : s.cfg.legal) (hst : s.st = .mgap ∨ s.st = .qgap)
    (hp : ∀ t r h, P { s with tcnt := t, rem := r, host := h }) (hd : 1 ≤ d) (hfit : d < 2 ^ 20) :
    Shows P (loadWait d s) [(s.rfOut, d)] (phaseEnd { s with tcnt := 1#14, rem := 0#20 }) := by
  have hend : Shows P { s with tcnt := 1#14, rem := 0#20 } [(s.rfOut, 1)]
      (phaseEnd { s with tcnt := 1#14, rem := 0#20 }) :=
    Shows.phase hl (not_idle_of_wait hst) le_rfl rfl fun _ _ => hp _ _ _
  apply ((Shows.waitRest hl hst hp hd hfit).append hend).of_levels
  have hsum : d - 1 + 1 = d := by omega
  simp only [levels_append, levels, List.append_nil, List.replicate_append_replicate, hsum]

/-- A run, as `observe` sees it, with its last state in `P` too. -/
theorem Runs.observe_to (h : Runs P s w u) (hu : P u) :
    ∃ tr, observe (dur w) s = some tr ∧ (∀ x ∈ tr, P x) ∧ (s :: tr).getLast? = some u := by
  obtain ⟨l, tr, hobserve, hstates, -, hl⟩ := h
  have hall : ∀ x ∈ s :: tr, P x := by
    rw [hstates, List.forall_mem_append]
    exact ⟨hl, List.forall_mem_singleton.mpr hu⟩
  exact ⟨tr, hobserve, fun x hx => hall x (List.mem_cons_of_mem s hx), by rw [hstates, List.getLast?_concat]⟩

/-- Settles O46: the ticks of the wait before its last one, from the host that the state has. -/
theorem longWaitsLastTheirTicks : Obligations.LongWaitsLastTheirTicks := by
  intro s d hl hr hst hd hfit
  have hwait := Shows.waitRest (P := fun x => x.st = s.st ∧ x.rfOut = s.rfOut) hl hst (fun _ _ _ => ⟨rfl, rfl⟩) hd hfit
  have hruns := hwait.runs (by rwa [State.noReset, loadWait_host])
  rw [loadWait_host] at hruns
  exact hruns.observe_to ⟨rfl, rfl⟩

end Sys2Proof.Machine

/-! PROOF. A transmission on the pin (42_transmitter.md R199): bit by bit, segment by segment, frame by frame, the ticks
of Part B show the waveforms of Part A, for every host that does not reset. -/

namespace Sys2Proof.Machine

open Sys2Proof.Statements

variable {s u : State} {v c : Byte} {w : Waveform} {k n : Nat} {i : BitVec 3}

/-- A state inside a transmission (R176), for a step of a sequence or for none. -/
def Sending (id : SeqId) (pc : BitVec 2) (x : State) : Prop :=
  x.irqInhibit = true ∧ x.seqid = id ∧ x.seqpc = pc

theorem busy_of_irqInhibit (h : s.irqInhibit = true) : s.busy = true ∧ s.reqReady = false := by
  unfold State.irqInhibit at h
  unfold State.busy State.reqReady
  cases hst : s.st <;> simp_all

/-! A bit. -/

/-- The last tick of a pause `p`. -/
def State.pauseEnds (s : State) (p : Phase) : State :=
  { s with st := p, rfOut := false, tcnt := 1#14 }

theorem highTime_bounds {cfg : Config} (hl : cfg.legal) (b : Bool) : 1 ≤ highTime cfg b ∧ highTime cfg b ≤ 16383 := by
  obtain ⟨h01, ⟨h0, -⟩, ⟨h1, -⟩, hmax, -⟩ := hl
  cases b with
  | false => exact ⟨h0, h01.le.trans (h1.trans hmax)⟩
  | true => exact ⟨h0.trans h01.le, h1.trans hmax⟩

theorem bitPause_bounds {cfg : Config} (hl : cfg.legal) (i : BitVec 3) :
    1 ≤ bitPause cfg i ∧ bitPause cfg i ≤ 16383 := by
  obtain ⟨-, ⟨-, hh, -, hb, -⟩, ⟨-, hh', -, hb', -⟩, hmax, -⟩ := hl
  unfold bitPause
  split <;> omega

theorem segPause_bounds {cfg : Config} (hl : cfg.legal) (i : BitVec 3) :
    1 ≤ segPause cfg i ∧ segPause cfg i ≤ 16383 := by
  obtain ⟨-, ⟨-, -, hh, -, hb, -⟩, ⟨-, -, hh', -, hb'⟩, hmax, -⟩ := hl
  unfold segPause
  split <;> omega

/-- A bit (R170, R184, R186): its high time, its pause, and then what `LOW` ends in. -/
theorem Shows.bit (hl : s.cfg.legal) :
    Shows (Sending s.seqid s.seqpc) (bitBegins v s) (emitBit s.cfg (v.getLsbD 7) (bitPause s.cfg s.seg))
      (endLow ({ s with sh := v }.pauseEnds .low)) := by
  have ⟨hhigh, hhigh'⟩ := highTime_bounds hl (v.getLsbD 7)
  have ⟨hlow, hlow'⟩ := bitPause_bounds hl s.seg
  have hpulse : Shows (Sending s.seqid s.seqpc) (bitBegins v s) [(true, highTime s.cfg (v.getLsbD 7))]
      (endHigh { bitBegins v s with tcnt := 1#14 }) :=
    Shows.phase (s := bitBegins v s) hl nofun hhigh (ticks_toNat hhigh') fun _ _ => ⟨rfl, rfl, rfl⟩
  have hpause : Shows (Sending s.seqid s.seqpc) (endHigh { bitBegins v s with tcnt := 1#14 })
      [(false, bitPause s.cfg s.seg)] (endLow ({ s with sh := v }.pauseEnds .low)) :=
    Shows.phase (s := endHigh { bitBegins v s with tcnt := 1#14 }) hl nofun hlow (ticks_toNat hlow')
      fun _ _ => ⟨rfl, rfl, rfl⟩
  exact hpulse.append hpause

/-! A segment. -/

/-- Bit `k` of a value is in bit 7 when the low `k + 1` bits are left-aligned. -/
theorem getLsbD_aligned (v : Byte) (hk : k ≤ 7) : (v <<< (7 - k)).getLsbD 7 = v.getLsbD k := by
  have hbit : 7 - (7 - k) = k := by omega
  have hle : ¬ 7 < 7 - k := by omega
  rw [BitVec.getLsbD_shiftLeft, hbit]
  simp [hle]

theorem emitSegment_succ (cfg : Config) (v : Byte) (n p d : Nat) :
    emitSegment cfg v (n + 1) p d = emitBit cfg (v.getLsbD n) p ++ emitSegment cfg v n p d :=
  List.append_assoc _ _ _

/-- The low `k + 1` bits of a value, left-aligned in the shift register, and then the segment pause (R171, R187). -/
theorem Shows.bits (hl : s.cfg.legal) (hk : k ≤ 7) :
    Shows (Sending s.seqid s.seqpc) (bitBegins (v <<< (7 - k)) { s with nbit := BitVec.ofNat 3 k })
      (emitSegment s.cfg v (k + 1) (bitPause s.cfg s.seg) (segPause s.cfg s.seg))
      (endSgap ({ s with sh := v <<< 7, nbit := 0#3 }.pauseEnds .sgap)) := by
  induction k with
  | zero =>
    have ⟨hpause, hpause'⟩ := segPause_bounds hl s.seg
    have hbit := Shows.bit (s := { s with nbit := 0#3 }) (v := v <<< 7) hl
    rw [getLsbD_aligned v hk, endLow_pause rfl] at hbit
    exact hbit.append (Shows.phase hl nofun hpause (ticks_toNat hpause') fun _ _ => ⟨rfl, rfl, rfl⟩)
  | succ k ih =>
    have hbit := Shows.bit (s := { s with nbit := BitVec.ofNat 3 (k + 1) }) (v := v <<< (7 - (k + 1))) hl
    have hleft : (BitVec.ofNat 3 (k + 1)).toNat = k + 1 := by
      rw [BitVec.toNat_ofNat]
      omega
    have hshift : v <<< (7 - (k + 1)) <<< 1 = v <<< (7 - k) := by
      rw [← BitVec.shiftLeft_add]
      congr 1
      omega
    have hnbit : BitVec.ofNat 3 (k + 1) - 1#3 = BitVec.ofNat 3 k := by
      rw [BitVec.ofNat_add, add_sub_cancel_right]
    rw [getLsbD_aligned v hk, endLow_bit (by simp [State.pauseEnds, hleft])] at hbit
    simp only [State.pauseEnds, hshift, hnbit] at hbit
    rw [emitSegment_succ]
    exact hbit.append (ih (by omega))

/-- Segment `i` begins: its value stands left-aligned in the shift register (R183, R184). -/
def State.segBegins (s : State) (i : BitVec 3) : State :=
  bitBegins (loadedShift s.cfg i s.cmd s.enc) { s with seg := i, nbit := if i = 0#3 then 3#3 else 7#3 }

theorem segBegins_header (s : State) : s.segBegins 0#3 = bitBegins 0xA0#8 { s with seg := 0#3, nbit := 3#3 } := by
  rw [State.segBegins, if_pos rfl, loadedShift_header]

theorem segBegins_body (s : State) (hi : i ≠ 0#3) :
    s.segBegins i = bitBegins (segVal s.cfg i s.cmd s.enc) { s with seg := i, nbit := 7#3 } := by
  rw [State.segBegins, if_neg hi, loadedShift_body _ _ _ hi]

/-- The last tick of segment `i`. -/
def State.segEnds (s : State) (i : BitVec 3) : State :=
  { s with seg := i, sh := segVal s.cfg i s.cmd s.enc <<< 7, nbit := 0#3 }.pauseEnds .sgap

/-- The waveform of segment `i` (R95, R171). -/
def segWave (cfg : Config) (i : BitVec 3) (c e : Byte) : Waveform :=
  emitSegment cfg (segVal cfg i c e) (segBits i) (bitPause cfg i) (segPause cfg i)

theorem Shows.segment (hl : s.cfg.legal) (i : BitVec 3) :
    Shows (Sending s.seqid s.seqpc) (s.segBegins i) (segWave s.cfg i s.cmd s.enc) (endSgap (s.segEnds i)) := by
  by_cases hi : i = 0#3
  · subst hi
    have hheader : (0xA0#8 : Byte) = 0b1010#8 <<< (7 - 3) := by decide
    rw [segBegins_header, hheader]
    exact Shows.bits (s := { s with seg := 0#3 }) (v := 0b1010#8) (k := 3) hl (by decide)
  · have hbits : segBits i = 7 + 1 := if_neg hi
    have hbody := Shows.bits (s := { s with seg := i }) (v := segVal s.cfg i s.cmd s.enc) (k := 7) hl le_rfl
    rw [Nat.sub_self, BitVec.shiftLeft_zero] at hbody
    rw [segBegins_body s hi, segWave, hbits]
    exact hbody

/-- Below segment 6 the next segment begins (R188). -/
theorem Shows.nextSegment (hl : s.cfg.legal) (i : BitVec 3) (hi : i.toNat < 6) :
    Shows (Sending s.seqid s.seqpc) (s.segBegins i) (segWave s.cfg i s.cmd s.enc) (s.segBegins (i + 1#3)) := by
  have hbody : i + 1#3 ≠ 0#3 := by bv_omega
  have hnext : endSgap (s.segEnds i) = s.segBegins (i + 1#3) := by
    rw [endSgap_segment (s := s.segEnds i) hi, segBegins_body s hbody]
    rfl
  exact hnext ▸ Shows.segment hl i

/-! A frame. -/

/-- The waveform of a frame, segment by segment. -/
theorem emitFrame_eq_segWaves (cfg : Config) (c : Byte) :
    emitFrame cfg c = segWave cfg 0#3 c (encodeByte cfg.k c) ++ segWave cfg 1#3 c (encodeByte cfg.k c) ++
      segWave cfg 2#3 c (encodeByte cfg.k c) ++ segWave cfg 3#3 c (encodeByte cfg.k c) ++
      segWave cfg 4#3 c (encodeByte cfg.k c) ++ segWave cfg 5#3 c (encodeByte cfg.k c) ++
      segWave cfg 6#3 c (encodeByte cfg.k c) := rfl

/-- A frame from its header to the end of its last segment (R172). -/
theorem Shows.frame (hl : s.cfg.legal) (he : s.Encoded) :
    Shows (Sending s.seqid s.seqpc) (s.segBegins 0#3) (emitFrame s.cfg s.cmd) (endSgap (s.segEnds 6#3)) := by
  rw [emitFrame_eq_segWaves, ← show s.enc = encodeByte s.cfg.k s.cmd from he]
  have h0 := Shows.nextSegment hl 0#3 (by decide)
  have h1 := Shows.nextSegment hl 1#3 (by decide)
  have h2 := Shows.nextSegment hl 2#3 (by decide)
  have h3 := Shows.nextSegment hl 3#3 (by decide)
  have h4 := Shows.nextSegment hl 4#3 (by decide)
  have h5 := Shows.nextSegment hl 5#3 (by decide)
  exact (((((h0.append h1).append h2).append h3).append h4).append h5).append (Shows.segment hl 6#3)

/-- A frame that is not the last one, and the idle after it: the next frame begins (R188, R189). -/
theorem Shows.frameAndIdle (hl : s.cfg.legal) (he : s.Encoded) (hrep : s.rep.toNat < 9) :
    Shows (Sending s.seqid s.seqpc) (s.segBegins 0#3) (emitFrame s.cfg s.cmd ++ gap s.cfg s.cfg.msgPause)
      ({ s with rep := s.rep + 1#4, rem := 0#20 }.segBegins 0#3) := by
  obtain ⟨-, ⟨-, -, -, -, -, hmsg, hmax, -⟩, -, -, hfit, -⟩ := id hl
  have hframe := Shows.frame hl he
  rw [endSgap_idle (s := s.segEnds 6#3) le_rfl hrep] at hframe
  have hidle := Shows.longWait (P := Sending s.seqid s.seqpc) (s := { s.segEnds 6#3 with st := .mgap }) hl (.inl rfl)
    (fun _ _ _ => ⟨rfl, rfl, rfl⟩) hmsg hfit
  rw [phaseEnd_mgap rfl, endMgap_frame rfl] at hidle
  rw [segBegins_header { s with rep := s.rep + 1#4, rem := 0#20 }]
  exact hframe.append (hidle.of_levels (levels_gap hmax hmsg).symm)

/-! A transmission. -/

/-- The last `n + 1` frames of a transmission, up to what follows the tenth (R174, R188). -/
theorem Shows.repeatFrames (hl : s.cfg.legal) (he : s.Encoded) (hn : n ≤ 9) (r : BitVec 20) :
    ∃ r', Shows (Sending s.seqid s.seqpc) ({ s with rep := BitVec.ofNat 4 (9 - n), rem := r }.segBegins 0#3)
      (repeatFrames s.cfg s.cmd n)
      (txDone s.seqid s.seqpc.toNat ({ s with rep := 9#4, rem := r' }.segEnds 6#3)) := by
  induction n generalizing r with
  | zero =>
    have hframe := Shows.frame (s := { s with rep := 9#4, rem := r }) hl he
    rw [endSgap_done (s := State.segEnds _ _) le_rfl le_rfl] at hframe
    exact ⟨r, hframe⟩
  | succ n ih =>
    have hrep : (BitVec.ofNat 4 (9 - (n + 1))).toNat < 9 := by
      rw [BitVec.toNat_ofNat]
      omega
    have hnext : BitVec.ofNat 4 (9 - (n + 1)) + 1#4 = BitVec.ofNat 4 (9 - n) := by
      rw [← BitVec.ofNat_add]
      congr 1
      omega
    have hframe := Shows.frameAndIdle (s := { s with rep := BitVec.ofNat 4 (9 - (n + 1)), rem := r }) hl he hrep
    simp only [hnext] at hframe
    obtain ⟨r', hrest⟩ := ih (by omega) 0#20
    exact ⟨r', hframe.append hrest⟩

/-- A transmission starts with the header of its first frame (R182). -/
theorem startTx_eq_segBegins (c : Byte) (s : State) :
    startTx c s = { s with cmd := c, enc := encodeByte s.cfg.k c, rep := 0#4 }.segBegins 0#3 := by
  rw [segBegins_header, startTx_eq]
  rfl

/-- A transmission from its first tick to what follows its last one (R174, R182, R191). -/
theorem Shows.transmit (hl : s.cfg.legal) (c : Byte) :
    ∃ e : State, e.rfOut = false ∧ e.cfg = s.cfg ∧ e.seqid = s.seqid ∧ e.seqpc = s.seqpc ∧
      Shows (Sending s.seqid s.seqpc) (startTx c s) (transmit s.cfg c) (txDone e.seqid e.seqpc.toNat e) := by
  obtain ⟨r, hframes⟩ :=
    Shows.repeatFrames (n := 9) (s := { s with cmd := c, enc := encodeByte s.cfg.k c }) hl rfl le_rfl s.rem
  rw [startTx_eq_segBegins]
  exact ⟨State.segEnds { s with cmd := c, enc := encodeByte s.cfg.k c, rep := 9#4, rem := r } 6#3, rfl, rfl, rfl, rfl,
    hframes⟩

/-- Settles O52: the request starts the transmission of its code for no sequence, so the operation ends with it. -/
theorem singleCommandShowsItsTransmission : Obligations.SingleCommandShowsItsTransmission := by
  rintro s op v c ⟨hl, hi⟩ ⟨hr, hv, rfl, rfl⟩ hhit
  have hstart : step s = .next (startTx c { s.advance with seqid := .none, seqpc := 0#2 }) := by
    rw [step_dispatch hl (noReset_rst hr) hi hv, dispatch_hit ((romLookupHitsExactlyTheRanges _ _ c).mpr hhit)]
  obtain ⟨e, hpin, -, hid, -, hshows⟩ := Shows.transmit (s := { s.advance with seqid := .none, seqpc := 0#2 }) hl c
  rw [txDone_over (.inl hid)] at hshows
  obtain ⟨l, hobserve, hlength, hlevels, hsending⟩ := Runs.observe_from hstart (hshows.runs (noReset_tail hr rfl))
  refine ⟨l, _, hobserve, hlength, pinWave_eq_norm hlevels, fun x hx => ?_, rfl, hpin⟩
  obtain ⟨hinhibit, -⟩ := hsending x hx
  obtain ⟨hbusy, hready⟩ := busy_of_irqInhibit hinhibit
  exact ⟨hbusy, hinhibit, hready⟩

end Sys2Proof.Machine

/-! PROOF. The reserved operations (43_public_operations.md R228). -/

namespace Sys2Proof.Machine

open Sys2Proof.Statements

/-- Settles O26: the accepting tick dispatches the request after using up the inputs, and the dispatch of an operation
from 8 on is the same state. -/
theorem reservedRequestsChangeNothing : Obligations.ReservedRequestsChangeNothing := by
  refine ⟨fun s op v h => ?exec, fun s ⟨hl, hi⟩ hr hv h8 => ?tick⟩
  case exec => rw [exec_reserved, guarded_legal h.left]
  case tick =>
    have hstep : step s = .next (used s) := by
      rw [step_dispatch hl hr hi hv, dispatch_reserved h8]
      rfl
    have hidle : (used s).st = .idle := hi
    exact ⟨accepts_iff.mpr ⟨hr, hv, hi⟩, hstep, by simp [State.busy, hidle],
      fun hr' => by simp [State.reqReady, hidle, hr']⟩

end Sys2Proof.Machine

/-! PROOF. The two sequences on the pin (43_public_operations.md R226, R227; 42_transmitter.md R191 to R193, R199): a
transmission and a wait for every step but the last, and the transmission of the last, for every host that does not
reset. -/

namespace Sys2Proof.Machine

open Sys2Proof.Statements

variable {s x u v : State} {P Q : State → Prop} {w w' : Waveform} {l l' : List State} {c : Byte} {id : SeqId}
  {pc : BitVec 2} {n : Nat} {cfg : Config}

/-! The parts of a run, one after the other, with the states of each apart. -/

/-- A run as in `Runs`, with `l` for the states in which it shows `w`. -/
structure Part (P : State → Prop) (s : State) (w : Waveform) (l : List State) (u : State) : Prop where
  passes : ∃ tr, observe (dur w) s = some tr ∧ s :: tr = l ++ [u]
  pin    : l.map State.rfOut = levels w
  all    : ∀ x ∈ l, P x

theorem Runs.part (h : Runs P s w u) : ∃ l, Part P s w l u := by
  obtain ⟨l, tr, hobserve, hstates, hpin, hall⟩ := h
  exact ⟨l, ⟨tr, hobserve, hstates⟩, hpin, hall⟩

theorem Part.length (h : Part P s w l u) : l.length = dur w := by
  rw [← List.length_map (f := State.rfOut), h.pin, levels_length]

theorem Part.imp (h : Part P s w l u) (hq : ∀ x, P x → Q x) : Part Q s w l u :=
  ⟨h.passes, h.pin, fun x hx => hq x (h.all x hx)⟩

theorem Part.append (h : Part P s w l u) (h' : Part P u w' l' v) : Part P s (w ++ w') (l ++ l') v := by
  obtain ⟨⟨tr, hobserve, hstates⟩, hpin, hall⟩ := h
  obtain ⟨⟨tr', hobserve', hstates'⟩, hpin', hall'⟩ := h'
  refine ⟨⟨tr ++ tr', ?_, ?_⟩, by rw [List.map_append, hpin, hpin', levels_append],
    List.forall_mem_append.mpr ⟨hall, hall'⟩⟩
  · rw [dur_append]
    exact observe_append hobserve (by rw [hstates, List.getLast?_concat]) hobserve'
  · rw [← List.cons_append, hstates, List.append_assoc, List.append_assoc, List.singleton_append, hstates']

/-- A run that begins one tick after a state, as `observe` sees it. -/
theorem Part.observe_from (h : Part P u w l v) (hs : step s = .next u) :
    observe (dur w + 1) s = some (l ++ [v]) ∧ pinWave l = norm w := by
  obtain ⟨⟨tr, hobserve, hstates⟩, hpin, -⟩ := h
  exact ⟨by rw [observe_next hs hobserve, hstates], pinWave_eq_norm hpin⟩

/-! The steps of a sequence. -/

/-- A state in a wait of a sequence. -/
def Waiting (id : SeqId) (x : State) : Prop :=
  x.st = .qgap ∧ x.seqid = id

/-- A state inside a sequence, with the status outputs of R226. -/
def InSequence (id : SeqId) (x : State) : Prop :=
  x.busy = true ∧ x.reqReady = false ∧ x.seqid = id

theorem Sending.irqInhibit (h : Sending id pc x) : x.irqInhibit = true :=
  h.left

theorem Sending.seqpc (h : Sending id pc x) : x.seqpc = pc :=
  h.right.right

theorem Sending.inSequence (h : Sending id pc x) : InSequence id x := by
  obtain ⟨hinhibit, hid, -⟩ := h
  obtain ⟨hbusy, hready⟩ := busy_of_irqInhibit hinhibit
  exact ⟨hbusy, hready, hid⟩

theorem Waiting.inSequence (h : Waiting id x) : InSequence id x := by
  obtain ⟨hst, hid⟩ := h
  exact ⟨by simp [State.busy, hst], by simp [State.reqReady, hst], hid⟩

theorem Waiting.irqInhibit (h : Waiting id x) : x.irqInhibit = false := by
  simp [State.irqInhibit, h.left]

/-- The wait after a transmission, up to the first tick of the next one (R191 to R193). -/
theorem Shows.sequenceWait (hl : s.cfg.legal) (hpin : s.rfOut = false) (hid : s.seqid ≠ .none)
    (hpc : s.seqpc.toNat < s.seqid.last) (hc : seqLookup s.seqid (s.seqpc.toNat + 1) = some c) :
    Shows (Waiting s.seqid) (txDone s.seqid s.seqpc.toNat s) (gap s.cfg s.cfg.seqWait)
      (startTx c { s with st := .qgap, tcnt := 1#14, rem := 0#20, seqpc := BitVec.ofNat 2 (s.seqpc.toNat + 1) }) := by
  obtain ⟨-, ⟨-, -, -, -, -, -, hmax, hwait⟩, -, -, -, hfit⟩ := id hl
  have hlong := Shows.longWait (P := Waiting s.seqid) (s := { s with st := .qgap }) hl (.inr rfl)
    (fun _ _ _ => ⟨rfl, rfl⟩) hwait hfit
  have hnext := endQgap_step (s := { s with st := .qgap, tcnt := 1#14, rem := 0#20 }) rfl hc
  rw [phaseEnd_qgap rfl, hnext] at hlong
  rw [txDone_wait hid hpc, startTx_eq_firstTick]
  exact hlong.of_levels (by rw [levels_gap hmax hwait, hpin])

theorem startTx_withHost (c : Byte) (s : State) (h : List Inputs) :
    startTx c { s with host := h } = { startTx c s with host := h } := rfl

/-- Step `pc` of sequence `id` is about to start, for a host that does not reset. -/
structure AtStep (cfg : Config) (id : SeqId) (pc : Nat) (s : State) : Prop where
  cfg   : s.cfg = cfg
  host  : s.noReset
  seqid : s.seqid = id
  seqpc : s.seqpc = BitVec.ofNat 2 pc

/-- A step that is not the last: its transmission, the wait, and then the first tick of the next step (R193). -/
theorem AtStep.parts (h : AtStep cfg id n s) (hl : cfg.legal) (hn : n < id.last) (b : Byte)
    (hc : seqLookup id (n + 1) = some c) :
    ∃ t m q u, Part (Sending id (BitVec.ofNat 2 n)) (startTx b s) (transmit cfg b) t m ∧
      Part (Waiting id) m (gap cfg cfg.seqWait) q (startTx c u) ∧ AtStep cfg id (n + 1) u := by
  obtain ⟨rfl, hr, rfl, hpc⟩ := h
  obtain ⟨e, hpin, hcfg, heid, hepc, hsent⟩ := Shows.transmit hl b
  have hpcn : e.seqpc.toNat = n := by
    have hlast : s.seqid.last ≤ 2 := by cases s.seqid <;> decide
    rw [hepc, hpc, BitVec.toNat_ofNat]
    omega
  have hid : s.seqid ≠ .none := by
    intro hnone
    rw [hnone] at hn
    exact Nat.not_lt_zero n hn
  have hwaited := Shows.sequenceWait (s := e) (c := c) (hcfg ▸ hl) hpin (heid ▸ hid) (by rwa [hpcn, heid])
    (by rwa [hpcn, heid])
  rw [hcfg, heid, hpcn] at hwaited
  rw [hpc, heid, hpcn] at hsent
  obtain ⟨t, ht⟩ := (hsent.runs hr).part
  have hr' : ∀ p ∈ s.host.drop (dur (transmit s.cfg b)), p.rst = false := fun p hp => hr p (List.mem_of_mem_drop hp)
  obtain ⟨q, hq⟩ := (hwaited _ hr').part
  rw [← startTx_withHost] at hq
  exact ⟨t, _, q, _, ht, hq, rfl, fun p hp => hr' p (List.mem_of_mem_drop hp), rfl, rfl⟩

/-- The last step: its transmission, and then `IDLE` with the pin low (R191). -/
theorem AtStep.lastPart (h : AtStep cfg id id.last s) (hl : cfg.legal) (b : Byte) :
    ∃ t u, Part (Sending id (BitVec.ofNat 2 id.last)) (startTx b s) (transmit cfg b) t u ∧
      u.st = .idle ∧ u.rfOut = false := by
  obtain ⟨rfl, hr, rfl, hpc⟩ := h
  obtain ⟨e, hpin, -, heid, hepc, hsent⟩ := Shows.transmit hl b
  have hlast : e.seqid = .none ∨ e.seqid.last ≤ e.seqpc.toNat := by
    rw [hepc, hpc, heid]
    cases s.seqid <;> decide
  rw [hpc, txDone_over hlast] at hsent
  obtain ⟨t, ht⟩ := (hsent.runs hr).part
  exact ⟨t, _, ht, rfl, hpin⟩

/-- Settles O53: the three steps of the sequence one after the other, from the tick after the accepting one. -/
theorem startSequenceShowsItsWaveform : Obligations.StartSequenceShowsItsWaveform := by
  rintro s v ⟨hl, hi⟩ ⟨hr, hv, hop, rfl⟩
  obtain ⟨-, ⟨-, -, -, -, -, -, hmax, hwait⟩, -⟩ := id hl
  obtain ⟨-, hfan, hflame, -, -⟩ := seqLookup_steps
  have hstart : step s = .next (startTx 0x01#8 { s.advance with seqid := .start, seqpc := 0#2 }) := by
    rw [step_dispatch hl (noReset_rst hr) hi hv, hop, dispatch_start]
  have h0 : AtStep s.cfg .start 0 { s.advance with seqid := .start, seqpc := 0#2 } :=
    ⟨rfl, noReset_tail hr rfl, rfl, rfl⟩
  obtain ⟨t1, m1, q1, s1, ht1, hq1, h1⟩ := h0.parts hl (by decide) 0x01#8 hfan
  obtain ⟨t2, m2, q2, s2, ht2, hq2, h2⟩ := h1.parts hl (by decide) 0x40#8 hflame
  obtain ⟨t3, u, ht3, hidle, hlow⟩ := h2.lastPart hl 0x31#8
  have hall := ((((ht1.imp fun _ => Sending.inSequence).append (hq1.imp fun _ => Waiting.inSequence)).append
    (ht2.imp fun _ => Sending.inSequence)).append (hq2.imp fun _ => Waiting.inSequence)).append
    (ht3.imp fun _ => Sending.inSequence)
  obtain ⟨hobserve, hpin⟩ := hall.observe_from hstart
  refine ⟨t1, q1, t2, q2, t3, u, hobserve, ht1.length, hq1.length.trans (dur_gap hmax hwait), ht2.length,
    hq2.length.trans (dur_gap hmax hwait), ht3.length, hpin, hall.all, ?inhibit, ?free,
    fun x hx => (ht1.all x hx).seqpc, fun x hx => (ht2.all x hx).seqpc, fun x hx => (ht3.all x hx).seqpc, hidle, hlow⟩
  case inhibit =>
    simp only [List.forall_mem_append]
    exact ⟨⟨fun x hx => (ht1.all x hx).irqInhibit, fun x hx => (ht2.all x hx).irqInhibit⟩,
      fun x hx => (ht3.all x hx).irqInhibit⟩
  case free =>
    simp only [List.forall_mem_append]
    exact ⟨fun x hx => (hq1.all x hx).irqInhibit, fun x hx => (hq2.all x hx).irqInhibit⟩

/-- Settles O54: the two steps of the sequence one after the other, from the tick after the accepting one. -/
theorem stopSequenceShowsItsWaveform : Obligations.StopSequenceShowsItsWaveform := by
  rintro s v ⟨hl, hi⟩ ⟨hr, hv, hop, rfl⟩
  obtain ⟨-, ⟨-, -, -, -, -, -, hmax, hwait⟩, -⟩ := id hl
  obtain ⟨-, -, -, -, hoff⟩ := seqLookup_steps
  have hstart : step s = .next (startTx 0x40#8 { s.advance with seqid := .stop, seqpc := 0#2 }) := by
    rw [step_dispatch hl (noReset_rst hr) hi hv, hop, dispatch_stop]
  have h0 : AtStep s.cfg .stop 0 { s.advance with seqid := .stop, seqpc := 0#2 } :=
    ⟨rfl, noReset_tail hr rfl, rfl, rfl⟩
  obtain ⟨t1, m1, q1, s1, ht1, hq1, h1⟩ := h0.parts hl (by decide) 0x40#8 hoff
  obtain ⟨t2, u, ht2, hidle, hlow⟩ := h1.lastPart hl 0x02#8
  have hall := ((ht1.imp fun _ => Sending.inSequence).append (hq1.imp fun _ => Waiting.inSequence)).append
    (ht2.imp fun _ => Sending.inSequence)
  obtain ⟨hobserve, hpin⟩ := hall.observe_from hstart
  refine ⟨t1, q1, t2, u, hobserve, ht1.length, hq1.length.trans (dur_gap hmax hwait), ht2.length, hpin, hall.all,
    ?inhibit, fun x hx => (hq1.all x hx).irqInhibit, fun x hx => (ht1.all x hx).seqpc, fun x hx => (ht2.all x hx).seqpc,
    hidle, hlow⟩
  simp only [List.forall_mem_append]
  exact ⟨fun x hx => (ht1.all x hx).irqInhibit, fun x hx => (ht2.all x hx).irqInhibit⟩

end Sys2Proof.Machine

/-! PROOF. The tick in which no request is accepted (70_reset_and_hazards.md R281): `rst` is all that it reads of the
inputs. -/

namespace Sys2Proof.Machine

open Sys2Proof.Statements

variable {s : State}

/-- What a tick without an accepted request makes of a state whose inputs are used up (R180, R247). -/
def unrequested (rst : Bool) (s : State) : State :=
  if rst then .resetWith s.cfg s.host else if s.st = .idle then s else timerTick s

theorem reqValid_of_not_accepts (h : s.accepts = false) (hr : s.inputs.rst = false) (hi : s.st = .idle) :
    s.inputs.reqValid = false := by
  cases hv : s.inputs.reqValid with
  | false => rfl
  | true => exact absurd (accepts_iff.mpr ⟨hr, hv, hi⟩) (by simp [h])

/-- Of the four kinds of tick (R180) the one that runs a request is left out; none of the others reads a request input. -/
theorem step_unaccepted (h : s.accepts = false) : step s = s.advance.guarded (unrequested s.inputs.rst) := by
  by_cases hl : s.cfg.legal
  swap
  · rw [step_illegal hl, guarded_illegal (s := s.advance) hl]
  rw [guarded_legal (s := s.advance) hl]
  cases hr : s.inputs.rst with
  | true => exact step_reset hl hr
  | false =>
    by_cases hi : s.st = .idle
    · rw [step_quiet hl hr hi (reqValid_of_not_accepts h hr hi)]
      simp [unrequested, hi]
    · rw [step_busy hl hr hi]
      simp [unrequested, hi]

/-- Settles O37: both ticks accept nothing, and they agree in `rst` and in the state once the inputs are used up. -/
theorem unacceptedRequestsLeaveNoTrace : Obligations.UnacceptedRequestsLeaveNoTrace := by
  refine ⟨fun s op v h => ?noTrace, fun s ⟨hl, hi⟩ hr hv => ?quiet⟩
  case noTrace =>
    have hnone : ({ s with host := ⟨s.inputs.rst, false, op, v⟩ :: s.host.tail } : State).accepts = false := by
      simp [State.accepts, State.inputs]
    rw [step_unaccepted h, step_unaccepted hnone]
    rfl
  case quiet => exact step_quiet hl hr hi hv

end Sys2Proof.Machine
